-- ==== Sys2Proof/Word.lean ====
section
/-! DEFINITION. The word types of the LC-2 (spec/00_scope.md R5, R7). -/

namespace Sys2Proof

/-- A 16-bit word: a register, an address, an instruction, a memory location (R5, R7). -/
abbrev Word := BitVec 16

/-- An 8-bit character code, as the two devices carry it (R19, R21). -/
abbrev Byte := BitVec 8

end Sys2Proof
end

