-- ==== Sys2Proof/Syntax.lean ====
section
/-! DEFINITION. The instructions of the LC-2 as data: one constructor per row of
spec/opcode_table.json (spec/30_encoding.md R53), and the names of the ways a word can match no row (R54). -/

namespace Sys2Proof

/-- The eight general registers R0 to R7 (spec/10_state.md R10). -/
inductive Reg where
  | r0 | r1 | r2 | r3 | r4 | r5 | r6 | r7
  deriving DecidableEq, Repr, Inhabited

/-- The 20 instruction forms, in the order of the opcode table. A field keeps the width the encoding gives it
(spec/30_encoding.md R52), and every value of every field is legal (R56). -/
inductive Instr where
  | br (n z p : Bool) (po : BitVec 9)
  | addR (dr sr1 sr2 : Reg)
  | addI (dr sr1 : Reg) (imm5 : BitVec 5)
  | ld (dr : Reg) (po : BitVec 9)
  | st (sr : Reg) (po : BitVec 9)
  | jmp (po : BitVec 9)
  | jsr (po : BitVec 9)
  | andR (dr sr1 sr2 : Reg)
  | andI (dr sr1 : Reg) (imm5 : BitVec 5)
  | ldr (dr base : Reg) (off : BitVec 6)
  | str (sr base : Reg) (off : BitVec 6)
  | rti
  | notR (dr sr : Reg)
  | ldi (dr : Reg) (po : BitVec 9)
  | sti (sr : Reg) (po : BitVec 9)
  | jmpr (base : Reg) (off : BitVec 6)
  | jsrr (base : Reg) (off : BitVec 6)
  | ret
  | lea (dr : Reg) (po : BitVec 9)
  | trap (vec : BitVec 8)
  deriving DecidableEq, Repr

/-- Why a word matches no row of the opcode table: one name per row of the table of R54. -/
inductive Invalid where
  /-- 0001 with bit [5] = 0 and bits [4:3] not 00 -/
  | addFixedBits
  /-- 0101 with bit [5] = 0 and bits [4:3] not 00 -/
  | andFixedBits
  /-- 1001 with bits [5:0] not 111111 -/
  | notFixedBits
  /-- 0100 with bits [10:9] not 00 -/
  | jumpFixedBits
  /-- 1100 with bits [10:9] not 00 -/
  | jumpRegFixedBits
  /-- 1101 with bits [11:0] not all 0 -/
  | retFixedBits
  /-- 1000 with bits [11:0] not all 0 -/
  | rtiFixedBits
  /-- 1111 with bits [11:8] not 0000 -/
  | trapFixedBits
  deriving DecidableEq, Repr

end Sys2Proof
end

