-- ==== Sys2Proof/Config.lean ====
section
/-! DEFINITION. What the LC-2 leaves to the implementation or the environment: the launch parameters of
spec/00_scope.md R6 (spec/92_eei_decisions.md section 1), and the free values of R8 as constants with no body, which
no proof can see into. -/

namespace Sys2Proof

/-- Which address supplies the page bits of a page address: the instruction's own, or that address plus one
(`page_base`, spec/20_memory.md R32, D3). -/
inductive PageBase where
  | ia | iaPlus1
  deriving DecidableEq, Repr, Inhabited

/-- Which R7 a JSRR through R7 adds its offset to: the old value, or the return address just written (the values
`old` and `new` of `jsrr_r7`, spec/42_control.md R104, D7). -/
inductive JsrrBase where
  | old | new
  deriving DecidableEq, Repr, Inhabited

/-- TRAP as the hardware rule, or the five service calls as contracts (`trap_mode`, spec/43_trap.md R129, D10). -/
inductive TrapMode where
  | hardware | contract
  deriving DecidableEq, Repr, Inhabited

/-- What a read of KBDR does to the keyboard ready bit (`kbd_clear_on_read`, spec/60_exceptions.md R166, D19). -/
inductive KbdClear where
  | draw | always | never
  deriving DecidableEq, Repr, Inhabited

/-- A range of addresses, both ends included. -/
structure AddrRange where
  lo : Word
  hi : Word
  deriving DecidableEq, Repr, Inhabited

/-- The change of RTI's stack pointer per pop: +1 or -1 (`dir` of `rti_params`, spec/42_control.md R106). -/
inductive StackDir where
  | plus1 | minus1
  deriving DecidableEq, Repr, Inhabited

/-- RTI's stack convention (`rti_params`, spec/42_control.md R106, D11): the stack pointer register; the change of
the pointer per pop; whether the pointer moves before each read; whether the PC word is the first word popped; and
the bit positions of N, Z and P in the saved word. -/
structure RtiParams where
  sp : Reg
  dir : StackDir
  moveFirst : Bool
  pcFirst : Bool
  nBit : Fin 16
  zBit : Fin 16
  pBit : Fin 16
  deriving DecidableEq, Repr, Inhabited

/-- The launch parameters of spec/00_scope.md R6 that are not contents of registers, memory or devices. They are
fixed for a run: no step changes them. `unpopulated` lists the ranges where `is_ram` is false (R35, D21);
`jsrrR7 = none` is the value `refuse` of `jsrr_r7` (D7), and `rti = none` is `rti_params` absent (D11). `osPreserves`
is the named assumption of R129, and `crtEventuallyReady` the named assumption `crt_eventually_ready`
(spec/60_exceptions.md R167, D19; log 38). -/
structure Params where
  strictDecode : Bool
  pageBase : PageBase
  jsrrR7 : Option JsrrBase
  rti : Option RtiParams
  trapMode : TrapMode
  osPreserves : Bool
  kbdClearOnRead : KbdClear
  crtEventuallyReady : Bool
  unpopulated : List AddrRange
  deriving DecidableEq, Repr, Inhabited

namespace Config

/-- The free values `any_16`, `any_15`, `any_8` of spec/00_scope.md R8: the `k`-th value drawn in a run. No body: a
statement about it holds for every draw. (Log 18.) -/
opaque freeWord : Nat → Word

/-- The stores a service routine may make to ordinary memory when `os_preserves` is not assumed
(spec/43_trap.md R129). No body. (Log 29.) -/
opaque freeStores : Nat → List (Word × Word)

/-- The message HALT prints, "an arbitrary finite sequence of characters" (spec/93_implementation_defined.md U15). No
body. (Log 30.) -/
opaque haltMessage : Nat → List Byte

end Config

/-- The launch parameters when a launch names none: the defaults of spec/92_eei_decisions.md section 1. For `rti_params`
and `jsrr_r7` the default is a refusal (logs 10 and 11). -/
def Params.default : Params where
  strictDecode := true
  pageBase := .ia
  jsrrR7 := none
  rti := none
  trapMode := .hardware
  osPreserves := false
  kbdClearOnRead := .draw
  crtEventuallyReady := false
  unpopulated := []

end Sys2Proof
end

