-- ==== Sys2Proof/Machine/State.lean ====
section
/-! DEFINITION. The state of the LC-2 as plain data (spec/10_state.md), the launch state State.reset (R26), and the
ways a step can stop. -/

namespace Sys2Proof.Machine

open Sys2Proof

/-- The eight general registers, 16 bits each (R10). -/
structure Regs where
  r0 : Word
  r1 : Word
  r2 : Word
  r3 : Word
  r4 : Word
  r5 : Word
  r6 : Word
  r7 : Word
  deriving DecidableEq, Repr, Inhabited

/-- The three single-bit condition codes (R16). -/
structure CC where
  n : Bool
  z : Bool
  p : Bool
  deriving DecidableEq, Repr, Inhabited

/-- Memory as (address, word) cells: addresses strictly rising, no cell equal to what an unlisted address reads as.
The addressable unit is the 16-bit word (spec/20_memory.md R30, R33, R34; log 1). -/
abbrev Memory := List (Nat × Word)

/-- The five device registers (spec/20_memory.md R37; spec/10_state.md R18 to R22). -/
inductive Device where
  | crtsr | crtdr | kbsr | kbdr | mcr
  deriving DecidableEq, Repr

/-- What the devices may do by themselves: a character is typed (spec/60_exceptions.md R166), the CRT becomes ready
(R167). -/
inductive DeviceEvent where
  | key (c : Byte)
  | crtReady
  deriving DecidableEq, Repr

/-- The state of the devices: the machine control register (R22), the keyboard (spec/60_exceptions.md R166) and the
CRT (R167). -/
structure Devices where
  /-- MCR bit [15] -/
  clockEnable : Bool
  /-- MCR bits [14:0] as last written -/
  mcrLow : BitVec 15
  /-- whether MCR has been written: before the first write its bits [14:0] read as a free value (R22) -/
  mcrWritten : Bool
  /-- KBSR bit [15] -/
  kbReady : Bool
  /-- KBDR bits [7:0] -/
  kbChar : Byte
  /-- CRTSR bit [15] -/
  crtReady : Bool
  /-- the characters displayed so far, oldest first -/
  crtOut : List Byte
  deriving DecidableEq, Repr

/-- The whole machine. `env` is the environment's schedule: the events of each coming gap between two memory accesses
of the processor (spec/20_memory.md R39, R25; log 16). `draws` counts the free values drawn so far (the model's own;
log 18). `params` are the launch parameters (spec/00_scope.md R6; log 9). -/
structure State where
  regs : Regs
  pc : Word
  cc : CC
  mem : Memory
  dev : Devices
  env : List (List DeviceEvent)
  draws : Nat
  params : Params
  deriving DecidableEq, Repr

/-- Why the machine stops with a fault. -/
inductive Fault where
  /-- Raised by a step of a machine whose MCR bit [15] is 0: "instruction processing stops", the one final state of a
  run (spec/60_exceptions.md R168, spec/70_reset_and_hazards.md R196). Safe: the spec says it has no step. -/
  | clockStopped
  deriving DecidableEq, Repr

/-- Why a step has no meaning. -/
inductive Refusal where
  /-- Raised by an arm of exec whose instruction has no meaning yet. Safe. No arm raises it. -/
  | notModelled (mnemonic : String)
  /-- Raised by a step whose fetched word matches no row of the encoding table, under `strict_decode`
  (spec/30_encoding.md R54). Safe. -/
  | noEncoding (why : Invalid)
  /-- Raised by an instruction fetch from a device address (spec/20_memory.md R43). Safe. -/
  | fetchFromDevice (d : Device)
  /-- Raised by a fetch or read of an address where `is_ram` is false (spec/20_memory.md R35). Safe. -/
  | readUnpopulated (a : Word)
  /-- Raised by a write of an address where `is_ram` is false (spec/20_memory.md R35). Safe. -/
  | writeUnpopulated (a : Word)
  /-- Raised by a write to CRTSR, KBSR or KBDR (spec/10_state.md R18, R20, R21). Safe. -/
  | writeReadOnly (d : Device)
  /-- Raised by a write to CRTDR while CRTSR bit [15] is 0 (spec/60_exceptions.md R167). Safe. -/
  | crtNotReady
  /-- Raised by JSRR with BaseR = R7 where the launch gives `jsrr_r7` the value `refuse` (spec/42_control.md R104, D7).
  Safe. -/
  | jsrrThroughR7
  /-- Raised by RTI where the launch gives no `rti_params` (spec/42_control.md R106, D11). Safe. -/
  | rtiNoConvention
  /-- Raised in contract mode by TRAP with a vector that has no defined service (spec/43_trap.md R128). Safe. -/
  | trapNoService (vec : BitVec 8)
  deriving DecidableEq, Repr

/-- The launch state of R26 at the values the spec gives (clock enabled, no key pending, nothing displayed, one
condition code set), and at the values the log names where it gives none (logs 2 to 8, 16). -/
def State.reset : State where
  regs := ⟨0, 0, 0, 0, 0, 0, 0, 0⟩
  pc := 0x3000#16
  cc := ⟨false, true, false⟩
  mem := []
  dev := { clockEnable := true, mcrLow := 0, mcrWritten := false, kbReady := false, kbChar := 0,
           crtReady := false, crtOut := [] }
  env := []
  draws := 0
  params := Params.default

end Sys2Proof.Machine
end

