-- ==== Sys2Proof/Machine/Devices.lean ====
section
/-! DEFINITION. The keyboard, the CRT and the machine control register: what the devices do by themselves, and what a
read or a write of each device register does (spec/10_state.md R18 to R22; spec/60_exceptions.md R166 to R168). -/

namespace Sys2Proof.Machine

/-- The device register at an address, if it is one of the five (spec/20_memory.md R37). -/
def deviceAt (a : Word) : Option Device :=
  if a = 0xF3FC#16 then some .crtsr
  else if a = 0xF3FF#16 then some .crtdr
  else if a = 0xF400#16 then some .kbsr
  else if a = 0xF401#16 then some .kbdr
  else if a = 0xF402#16 then some .mcr
  else none

/-- A device's own step: a typed character replaces the last one and sets the ready bit (R166); the CRT becomes ready
(R167). -/
def State.deviceStep (s : State) : DeviceEvent → State
  | .key c => { s with dev := { s.dev with kbReady := true, kbChar := c } }
  | .crtReady => { s with dev := { s.dev with crtReady := true } }

/-- Several device steps, the first of the list first. -/
def State.deviceSteps (s : State) (es : List DeviceEvent) : State := es.foldl State.deviceStep s

/-- A gap past the end of the schedule: nothing happens, but that under the named assumption `crt_eventually_ready`
the CRT becomes ready (R167, D19; log 38). -/
def State.idle (s : State) : State := if s.params.crtEventuallyReady then s.deviceStep .crtReady else s

/-- A point between two memory accesses, where the devices do what the environment has scheduled for it
(spec/20_memory.md R39; log 16). -/
def State.gap (s : State) : State :=
  match s.env with
  | [] => s.idle
  | es :: rest => State.deviceSteps { s with env := rest } es

/-- The next free value of the run. -/
def State.drawn (s : State) : Word := Config.freeWord s.draws

/-- The state once a free value has been drawn. -/
def State.afterDraw (s : State) : State := { s with draws := s.draws + 1 }

/-- The keyboard ready bit after a read of KBDR (`kbd_clear_on_read`, R166): under `draw`, 0 or unchanged as a free
value chooses. -/
def State.kbReadyAfterRead (s : State) (x : Word) : Bool :=
  match s.params.kbdClearOnRead with
  | .draw => s.dev.kbReady && x.getLsbD 15
  | .always => false
  | .never => s.dev.kbReady

/-- A read of a device register: the value and the state after it (R18 to R22, R166 to R168). The bits the spec does
not describe are free: KBDR's free value gives its bits [15:8] and, by its bit [15], the clearing of the ready bit
from a draw of its own. -/
def State.readDevice (s : State) : Device → Word × State
  | .crtsr => (BitVec.ofBool s.dev.crtReady ++ s.drawn.extractLsb' 0 15, s.afterDraw)
  | .crtdr => (s.drawn, s.afterDraw)
  | .kbsr => (BitVec.ofBool s.dev.kbReady ++ s.drawn.extractLsb' 0 15, s.afterDraw)
  | .kbdr =>
    let t := s.afterDraw
    (s.drawn.extractLsb' 0 8 ++ s.dev.kbChar,
      { t.afterDraw with dev := { s.dev with kbReady := s.kbReadyAfterRead t.drawn } })
  | .mcr =>
    if s.dev.mcrWritten then (BitVec.ofBool s.dev.clockEnable ++ s.dev.mcrLow, s)
    else (BitVec.ofBool s.dev.clockEnable ++ s.drawn.extractLsb' 0 15, s.afterDraw)

/-- A character sent to a ready CRT: it is displayed, and the ready bit is then a free value (R167). -/
def State.display (s : State) (c : Byte) : State :=
  { s.afterDraw with dev := { s.dev with crtOut := s.dev.crtOut ++ [c], crtReady := s.drawn.getLsbD 0 } }

/-- A write of MCR: bit [15] is the clock enable, the other bits are kept (R22, R168). -/
def State.writeMcr (s : State) (v : Word) : State :=
  { s with dev := { s.dev with clockEnable := v.msb, mcrLow := v.extractLsb' 0 15, mcrWritten := true } }

/-- A write to a device register (R18 to R22, R167, R168). -/
def State.writeDevice (s : State) (d : Device) (v : Word) : Except Refusal State :=
  match d with
  | .crtdr => if s.dev.crtReady then .ok (s.display (v.extractLsb' 0 8)) else .error .crtNotReady
  | .mcr => .ok (s.writeMcr v)
  | .crtsr => .error (.writeReadOnly .crtsr)
  | .kbsr => .error (.writeReadOnly .kbsr)
  | .kbdr => .error (.writeReadOnly .kbdr)

end Sys2Proof.Machine
end

