-- ==== Sys2Proof/Machine/Flags.lean ====
section
/-! DEFINITION. The condition codes: how they are set from a value, loaded from a saved word, and checked by a branch
(spec/10_state.md R14, R16; spec/42_control.md R100, R106). -/

namespace Sys2Proof.Machine

/-- `setcc(v)`: N from bit [15], Z when all 16 bits are 0, P otherwise (R14). -/
def CC.ofWord (v : Word) : CC := { n := v.msb, z := v == 0#16, p := !v.msb && v != 0#16 }

/-- N, Z and P from the bits of a saved word that RTI's convention names (`nzp_bits`, R106). -/
def CC.ofSaved (r : RtiParams) (w : Word) : CC := { n := w.getLsbD r.nBit, z := w.getLsbD r.zBit, p := w.getLsbD r.pBit }

/-- One of the three patterns with exactly one code set, chosen by a free value (spec/43_trap.md R129). -/
def CC.ofDraw (x : Word) : CC :=
  if x.getLsbD 0 then { n := true, z := false, p := false }
  else if x.getLsbD 1 then { n := false, z := true, p := false }
  else { n := false, z := false, p := true }

/-- Does a branch with select bits n, z, p find a selected code set? (R100) -/
def CC.taken (c : CC) (n z p : Bool) : Bool := (n && c.n) || (z && c.z) || (p && c.p)

/-- Exactly one of N, Z, P is 1 (R17). -/
def CC.oneHot (c : CC) : Bool :=
  (c.n && !c.z && !c.p) || (!c.n && c.z && !c.p) || (!c.n && !c.z && c.p)

end Sys2Proof.Machine
end

