-- ==== Sys2Proof/Machine/Memory.lean ====
section
/-! DEFINITION. Memory as a canonical list of (address, word) cells, and its read and write (spec/10_state.md R24,
spec/20_memory.md R30, R33). -/

namespace Sys2Proof.Machine

/-- What an address that memory does not list holds (log 2). -/
def unlistedWord : Word := 0#16

/-- The word at an address: the listed one, or what an unlisted address holds. -/
def Memory.read : Memory → Nat → Word
  | [], _ => unlistedWord
  | (k, w) :: m, a => if a < k then unlistedWord else if a = k then w else Memory.read m a

/-- A cell put at the front, unless it says no more than an unlisted address does. -/
def Memory.cell (a : Nat) (v : Word) (m : Memory) : Memory := if v = unlistedWord then m else (a, v) :: m

/-- Storing a word, which keeps the canonical form. -/
def Memory.write : Memory → Nat → Word → Memory
  | [], a, v => Memory.cell a v []
  | (k, w) :: m, a, v =>
    if a < k then Memory.cell a v ((k, w) :: m)
    else if a = k then Memory.cell a v m
    else (k, w) :: Memory.write m a v

/-- The canonical form from an address on: addresses at least `lo`, strictly rising and below 2^16, and no cell equal
to what an unlisted address holds. -/
def Memory.wfFrom : Nat → Memory → Bool
  | _, [] => true
  | lo, (k, w) :: m => decide (lo ≤ k) && decide (k < 65536) && decide (w ≠ unlistedWord) && Memory.wfFrom (k + 1) m

/-- The canonical form of memory. -/
def Memory.wf (m : Memory) : Bool := Memory.wfFrom 0 m

end Sys2Proof.Machine
end

