-- ==== Sys2Proof/WellFormed.lean ====
section
/-! DEFINITION. Well-formedness. Every term of Instr is well formed, since its fields have the encoding's own widths
and every value of a field is legal (spec/30_encoding.md R56); what can be ill formed is a WORD, which must match a
row of the opcode table (R53, R54). The table stands here as data, so that the decoder can be held against it. -/

namespace Sys2Proof

/-- One row of the opcode map of R53: a word `w` is of this form when `w AND mask = pattern`. -/
structure OpcodeRow where
  mnemonic : String
  pattern : Word
  mask : Word
  deriving DecidableEq, Repr

/-- Does the word match the row? (R53) -/
def OpcodeRow.covers (r : OpcodeRow) (w : Word) : Bool := (w &&& r.mask) == r.pattern

/-- The row of each form, with the match and the mask of R53. -/
def Instr.row : Instr → OpcodeRow
  | .br _ _ _ _ => ⟨"BR", 0x0000#16, 0xF000#16⟩
  | .addR _ _ _ => ⟨"ADD", 0x1000#16, 0xF038#16⟩
  | .addI _ _ _ => ⟨"ADD", 0x1020#16, 0xF020#16⟩
  | .ld _ _ => ⟨"LD", 0x2000#16, 0xF000#16⟩
  | .st _ _ => ⟨"ST", 0x3000#16, 0xF000#16⟩
  | .jmp _ => ⟨"JMP", 0x4000#16, 0xFE00#16⟩
  | .jsr _ => ⟨"JSR", 0x4800#16, 0xFE00#16⟩
  | .andR _ _ _ => ⟨"AND", 0x5000#16, 0xF038#16⟩
  | .andI _ _ _ => ⟨"AND", 0x5020#16, 0xF020#16⟩
  | .ldr _ _ _ => ⟨"LDR", 0x6000#16, 0xF000#16⟩
  | .str _ _ _ => ⟨"STR", 0x7000#16, 0xF000#16⟩
  | .rti => ⟨"RTI", 0x8000#16, 0xFFFF#16⟩
  | .notR _ _ => ⟨"NOT", 0x903F#16, 0xF03F#16⟩
  | .ldi _ _ => ⟨"LDI", 0xA000#16, 0xF000#16⟩
  | .sti _ _ => ⟨"STI", 0xB000#16, 0xF000#16⟩
  | .jmpr _ _ => ⟨"JMPR", 0xC000#16, 0xFE00#16⟩
  | .jsrr _ _ => ⟨"JSRR", 0xC800#16, 0xFE00#16⟩
  | .ret => ⟨"RET", 0xD000#16, 0xFFFF#16⟩
  | .lea _ _ => ⟨"LEA", 0xE000#16, 0xF000#16⟩
  | .trap _ => ⟨"TRAP", 0xF000#16, 0xFF00#16⟩

/-- One instruction of each form, in the order of the table, with every field zero. -/
def Instr.forms : List Instr :=
  [.br false false false 0, .addR .r0 .r0 .r0, .addI .r0 .r0 0, .ld .r0 0, .st .r0 0, .jmp 0, .jsr 0,
   .andR .r0 .r0 .r0, .andI .r0 .r0 0, .ldr .r0 .r0 0] ++
  [.str .r0 .r0 0, .rti, .notR .r0 .r0, .ldi .r0 0, .sti .r0 0, .jmpr .r0 0, .jsrr .r0 0, .ret,
   .lea .r0 0, .trap 0]

/-- The opcode map of R53: 20 rows. -/
def opcodeTable : List OpcodeRow := Instr.forms.map Instr.row

/-- A word is well formed when some row of the opcode map covers it (R53, R54). -/
def Word.wellFormed (w : Word) : Bool := opcodeTable.any (·.covers w)

/-- Two forms are the same row of the opcode map. -/
def Instr.sameForm (i j : Instr) : Bool := i.row == j.row

end Sys2Proof
end

