-- ==== Sys2Proof/Decode.lean ====
section
/-! DEFINITION. The decoder, total on all 65536 words, and the encoder, both written from
spec/30_encoding.md R51, R52 and R57. -/

namespace Sys2Proof

/-- A 3-bit register field with value `i` names Ri (spec/10_state.md R10). -/
def Reg.ofBits (b : BitVec 3) : Reg :=
  match b.toNat with
  | 0 => .r0
  | 1 => .r1
  | 2 => .r2
  | 3 => .r3
  | 4 => .r4
  | 5 => .r5
  | 6 => .r6
  | _ => .r7

/-- The 3-bit field that names the register. -/
def Reg.toBits : Reg → BitVec 3
  | .r0 => 0#3
  | .r1 => 1#3
  | .r2 => 2#3
  | .r3 => 3#3
  | .r4 => 4#3
  | .r5 => 5#3
  | .r6 => 6#3
  | .r7 => 7#3

/-- The opcode, bits [15:12] (R50). -/
def fieldOpcode (w : Word) : BitVec 4 := w.extractLsb' 12 4
/-- DR, or SR of a store: the register of bits [11:9] (R52). -/
def fieldDr (w : Word) : Reg := Reg.ofBits (w.extractLsb' 9 3)
/-- SR1, SR of NOT, or BaseR: the register of bits [8:6] (R52). -/
def fieldSr1 (w : Word) : Reg := Reg.ofBits (w.extractLsb' 6 3)
/-- SR2: the register of bits [2:0] (R52). -/
def fieldSr2 (w : Word) : Reg := Reg.ofBits (w.extractLsb' 0 3)
/-- imm5, bits [4:0] (R52). -/
def fieldImm5 (w : Word) : BitVec 5 := w.extractLsb' 0 5
/-- offset6, bits [5:0] (R52). -/
def fieldOffset6 (w : Word) : BitVec 6 := w.extractLsb' 0 6
/-- pageoffset9, bits [8:0] (R52). -/
def fieldPageoffset9 (w : Word) : BitVec 9 := w.extractLsb' 0 9
/-- trapvect8, bits [7:0] (R52). -/
def fieldTrapvect8 (w : Word) : BitVec 8 := w.extractLsb' 0 8
/-- Bit [5], which selects the immediate form of ADD and AND (R50). -/
def fieldImmBit (w : Word) : Bool := w.getLsbD 5
/-- L, bit [11], which selects the subroutine form of the jumps (R50). -/
def fieldL (w : Word) : Bool := w.getLsbD 11

/-- n, the select bit [11] of BR (R52). -/
def fieldN (w : Word) : Bool := w.getLsbD 11
/-- z, the select bit [10] of BR (R52). -/
def fieldZ (w : Word) : Bool := w.getLsbD 10
/-- p, the select bit [9] of BR (R52). -/
def fieldP (w : Word) : Bool := w.getLsbD 9

/-- Decoding with the fixed bits ignored: the word is the instruction its opcode, its bit [5] (0001 and 0101) and
its bit [11] (0100 and 1100) select. This is `strict_decode = false` of R54; on a word of the opcode map it is the
decoder of R57. -/
def decodeLoose (w : Word) : Instr :=
  match (fieldOpcode w).toNat with
  | 0 => .br (fieldN w) (fieldZ w) (fieldP w) (fieldPageoffset9 w)
  | 1 => if fieldImmBit w then .addI (fieldDr w) (fieldSr1 w) (fieldImm5 w)
         else .addR (fieldDr w) (fieldSr1 w) (fieldSr2 w)
  | 2 => .ld (fieldDr w) (fieldPageoffset9 w)
  | 3 => .st (fieldDr w) (fieldPageoffset9 w)
  | 4 => if fieldL w then .jsr (fieldPageoffset9 w) else .jmp (fieldPageoffset9 w)
  | 5 => if fieldImmBit w then .andI (fieldDr w) (fieldSr1 w) (fieldImm5 w)
         else .andR (fieldDr w) (fieldSr1 w) (fieldSr2 w)
  | 6 => .ldr (fieldDr w) (fieldSr1 w) (fieldOffset6 w)
  | 7 => .str (fieldDr w) (fieldSr1 w) (fieldOffset6 w)
  | 8 => .rti
  | 9 => .notR (fieldDr w) (fieldSr1 w)
  | 10 => .ldi (fieldDr w) (fieldPageoffset9 w)
  | 11 => .sti (fieldDr w) (fieldPageoffset9 w)
  | 12 => if fieldL w then .jsrr (fieldSr1 w) (fieldOffset6 w) else .jmpr (fieldSr1 w) (fieldOffset6 w)
  | 13 => .ret
  | 14 => .lea (fieldDr w) (fieldPageoffset9 w)
  | _ => .trap (fieldTrapvect8 w)

/-- The first fixed bits of the encoding table that the word violates, by the name of its row of R54; none where the
word matches a row of R53. -/
def fixedBitsViolated (w : Word) : Option Invalid :=
  match (fieldOpcode w).toNat with
  | 1 => if !fieldImmBit w && w.extractLsb' 3 2 != 0#2 then some .addFixedBits else none
  | 4 => if w.extractLsb' 9 2 != 0#2 then some .jumpFixedBits else none
  | 5 => if !fieldImmBit w && w.extractLsb' 3 2 != 0#2 then some .andFixedBits else none
  | 8 => if w.extractLsb' 0 12 != 0#12 then some .rtiFixedBits else none
  | 9 => if w.extractLsb' 0 6 != 0x3F#6 then some .notFixedBits else none
  | 12 => if w.extractLsb' 9 2 != 0#2 then some .jumpRegFixedBits else none
  | 13 => if w.extractLsb' 0 12 != 0#12 then some .retFixedBits else none
  | 15 => if w.extractLsb' 8 4 != 0#4 then some .trapFixedBits else none
  | _ => none

/-- The decoder of R57, with the launch parameter `strict_decode` of R54: strictly, a word whose fixed bits differ
from the encoding table is rejected by name; otherwise its fixed bits are ignored. -/
def decode (strict : Bool) (w : Word) : Except Invalid Instr :=
  match strict, fixedBitsViolated w with
  | true, some why => .error why
  | _, _ => .ok (decodeLoose w)

/-- The word of an instruction: its fields at the positions of R51 over the fixed bits. -/
def encode : Instr → Word
  | .br n z p po => 0b0000#4 ++ BitVec.ofBool n ++ BitVec.ofBool z ++ BitVec.ofBool p ++ po
  | .addR dr sr1 sr2 => 0b0001#4 ++ dr.toBits ++ sr1.toBits ++ 0b000#3 ++ sr2.toBits
  | .addI dr sr1 imm5 => 0b0001#4 ++ dr.toBits ++ sr1.toBits ++ 0b1#1 ++ imm5
  | .ld dr po => 0b0010#4 ++ dr.toBits ++ po
  | .st sr po => 0b0011#4 ++ sr.toBits ++ po
  | .jmp po => 0b0100#4 ++ 0b000#3 ++ po
  | .jsr po => 0b0100#4 ++ 0b100#3 ++ po
  | .andR dr sr1 sr2 => 0b0101#4 ++ dr.toBits ++ sr1.toBits ++ 0b000#3 ++ sr2.toBits
  | .andI dr sr1 imm5 => 0b0101#4 ++ dr.toBits ++ sr1.toBits ++ 0b1#1 ++ imm5
  | .ldr dr base off => 0b0110#4 ++ dr.toBits ++ base.toBits ++ off
  | .str sr base off => 0b0111#4 ++ sr.toBits ++ base.toBits ++ off
  | .rti => 0b1000#4 ++ 0#12
  | .notR dr sr => 0b1001#4 ++ dr.toBits ++ sr.toBits ++ 0b111111#6
  | .ldi dr po => 0b1010#4 ++ dr.toBits ++ po
  | .sti sr po => 0b1011#4 ++ sr.toBits ++ po
  | .jmpr base off => 0b1100#4 ++ 0b000#3 ++ base.toBits ++ off
  | .jsrr base off => 0b1100#4 ++ 0b100#3 ++ base.toBits ++ off
  | .ret => 0b1101#4 ++ 0#12
  | .lea dr po => 0b1110#4 ++ dr.toBits ++ po
  | .trap vec => 0b1111#4 ++ 0b0000#4 ++ vec

/-- The instruction the strict decoder (the spec's default, R54) reads from a word whose low `nbits` bits are those
of `w` and whose other bits are zero. Every instruction is one 16-bit word (R50). -/
def decodeTableWord (nbits w : Nat) : Option Instr := (decode true (BitVec.ofNat 16 (w % 2 ^ nbits))).toOption

end Sys2Proof
end

