-- ==== Sys2Proof/Machine/Operands.lean ====
section
/-! DEFINITION. The general registers, and how each operand field becomes a value or an address
(spec/10_state.md R10; spec/30_encoding.md R52; spec/41_data_movement.md R88, R89). -/

namespace Sys2Proof.Machine

/-- The value of a general register (R10). -/
def Regs.get (g : Regs) : Reg → Word
  | .r0 => g.r0
  | .r1 => g.r1
  | .r2 => g.r2
  | .r3 => g.r3
  | .r4 => g.r4
  | .r5 => g.r5
  | .r6 => g.r6
  | .r7 => g.r7

/-- The registers with one of them written (R10: none is hard-wired, none is read-only). -/
def Regs.set (g : Regs) (r : Reg) (v : Word) : Regs :=
  match r with
  | .r0 => { g with r0 := v }
  | .r1 => { g with r1 := v }
  | .r2 => { g with r2 := v }
  | .r3 => { g with r3 := v }
  | .r4 => { g with r4 := v }
  | .r5 => { g with r5 := v }
  | .r6 => { g with r6 := v }
  | .r7 => { g with r7 := v }

/-- `x[i]` of spec/00_scope.md R8. -/
def State.x (s : State) (r : Reg) : Word := s.regs.get r

/-- `sext_16(imm5)` (R52). -/
def immOperand (imm5 : BitVec 5) : Word := imm5.signExtend 16

/-- `zext_16(offset6)`, taken as a positive value (R52, R89). -/
def offsetOperand (off : BitVec 6) : Word := off.setWidth 16

/-- `zext_16(trapvect8)`, the address of a vector word (R52). -/
def vectorAddr (vec : BitVec 8) : Word := vec.setWidth 16

/-- `ia + 1` modulo 2^16, while `pc` still holds `ia` (spec/10_state.md R13, R15). -/
def State.nextPc (s : State) : Word := s.pc + 1#16

/-- A page address: the high 7 bits of one address over the 9 bits of an offset, a concatenation (R88). -/
def onPage (base : Word) (po : BitVec 9) : Word := base.extractLsb' 9 7 ++ po

/-- The page address of the instruction at `pc`. Its page bits are those of the instruction's own address, unless the
launch parameter `page_base` says otherwise (R88; spec/20_memory.md R32). -/
def State.pageAddr (s : State) (po : BitVec 9) : Word :=
  match s.params.pageBase with
  | .ia => onPage s.pc po
  | .iaPlus1 => onPage s.nextPc po

/-- The base+offset address: the base register plus the zero-extended offset, modulo 2^16 (R89). -/
def State.baseAddr (s : State) (base : Reg) (off : BitVec 6) : Word := s.x base + offsetOperand off

/-- The target of a JSRR through R7: the offset added to the old R7, or to the return address (spec/42_control.md
R104). -/
def State.jsrrThroughR7 (s : State) (off : BitVec 6) : JsrrBase → Word
  | .old => s.baseAddr .r7 off
  | .new => s.nextPc + offsetOperand off

/-- The target of a JSRR. Through R7 the launch parameter `jsrr_r7` says which, and there is none where its value is
`refuse` (R104, D7). -/
def State.jsrrTarget (s : State) (base : Reg) (off : BitVec 6) : Option Word :=
  if base = .r7 then s.params.jsrrR7.map (s.jsrrThroughR7 off) else some (s.baseAddr base off)

end Sys2Proof.Machine
end

