-- ==== Sys2Proof/Machine/Ops.lean ====
section
/-! DEFINITION. The named operations the meanings are made of: the memory primitives of spec/20_memory.md R35,
instruction fetch (R42, R43), register results, trap entry and the returns (spec/60_exceptions.md R163, R164). -/

namespace Sys2Proof.Machine

/-- What a meaning answers. -/
abbrev StepOutcome := Host.Outcome State Fault Refusal

/-- Does the range hold the address? -/
def AddrRange.holds (r : AddrRange) (a : Word) : Bool := decide (r.lo.toNat ≤ a.toNat) && decide (a.toNat ≤ r.hi.toNat)

/-- `is_ram(a)`: the launch names no range without memory there (spec/20_memory.md R35, D21). -/
def State.isRam (s : State) (a : Word) : Bool := !s.params.unpopulated.any (fun r => AddrRange.holds r a)

/-- The address is one of ordinary memory: no device register, and populated (R35, R37). -/
def State.ordinary (s : State) (a : Word) : Bool := (deviceAt a).isNone && s.isRam a

/-- The word of ordinary memory at an address. -/
def State.word (s : State) (a : Word) : Word := Memory.read s.mem a.toNat

/-- Ordinary memory with one word stored. -/
def State.setWord (s : State) (a v : Word) : State := { s with mem := Memory.write s.mem a.toNat v }

/-- `MemRead` once the devices have had their turn (R35). -/
def State.readNow (s : State) (a : Word) : Except Refusal (Word × State) :=
  match deviceAt a with
  | some d => .ok (s.readDevice d)
  | none => if s.isRam a then .ok (s.word a, s) else .error (.readUnpopulated a)

/-- `MemWrite` once the devices have had their turn (R35). -/
def State.writeNow (s : State) (a v : Word) : Except Refusal State :=
  match deviceAt a with
  | some d => s.writeDevice d v
  | none => if s.isRam a then .ok (s.setWord a v) else .error (.writeUnpopulated a)

/-- `MemRead(a, 16)`: a gap in which the devices may act, then the read (R35, R39). -/
def State.memRead (s : State) (a : Word) : Except Refusal (Word × State) := s.gap.readNow a

/-- `MemWrite(a, 16, v)`: a gap in which the devices may act, then the write (R35, R39). -/
def State.memWrite (s : State) (a v : Word) : Except Refusal State := s.gap.writeNow a v

/-- The instruction word at the program counter: an ordinary read of memory (R42), refused at a device address
(R43). -/
def State.fetch (s : State) : Except Refusal Word :=
  match deviceAt s.pc with
  | some d => .error (.fetchFromDevice d)
  | none => if s.isRam s.pc then .ok (s.word s.pc) else .error (.readUnpopulated s.pc)

/-- `x[r] <- v`. -/
def State.setReg (s : State) (r : Reg) (v : Word) : State := { s with regs := s.regs.set r v }

/-- `pc <- t`. -/
def State.jumpTo (s : State) (t : Word) : State := { s with pc := t }

/-- `pc <- ia + 1`. -/
def State.advance (s : State) : State := s.jumpTo s.nextPc

/-- The end of an instruction that sets the codes: `x[dr] <- v; setcc(v); pc <- ia + 1` (spec/10_state.md R14, R16). -/
def State.result (s : State) (dr : Reg) (v : Word) : State :=
  ({ s with cc := CC.ofWord v }.setReg dr v).advance

/-- `v <- MemRead(a, 16); x[dr] <- v; setcc(v); pc <- ia + 1`, the end of every load (spec/41_data_movement.md R80). -/
def State.loadFrom (s : State) (dr : Reg) (a : Word) : StepOutcome :=
  match s.memRead a with
  | .error r => .refused r
  | .ok (v, t) => .next (t.result dr v)

/-- `MemWrite(a, 16, v); pc <- ia + 1`, the end of every store (R80). -/
def State.storeTo (s : State) (a v : Word) : StepOutcome :=
  match s.memWrite a v with
  | .error r => .refused r
  | .ok t => .next t.advance

/-- `x[7] <- ia + 1; pc <- t`: the return address saved in the link register, then the jump (spec/42_control.md R102). -/
def State.link (s : State) (t : Word) : State := (s.setReg .r7 s.nextPc).jumpTo t

/-- Trap entry, the machine's only entry mechanism: it saves the return address in R7, changes no mode, mask, stack or
condition code, and goes to the address the vector word holds (spec/60_exceptions.md R163; spec/43_trap.md R120). -/
def State.trapEntry (s : State) (vec : BitVec 8) : StepOutcome :=
  match s.memRead (vectorAddr vec) with
  | .error r => .refused r
  | .ok (t, u) => .next (u.link t)

/-- Return from a subroutine or a service routine: `pc <- x[7]`, and nothing else (spec/60_exceptions.md R164). -/
def State.returnByLink (s : State) : State := s.jumpTo (s.x .r7)

/-- The stack pointer after one pop (spec/42_control.md R106). -/
def popMoved (r : RtiParams) (sp : Word) : Word :=
  match r.dir with
  | .plus1 => sp + 1#16
  | .minus1 => sp - 1#16

/-- The address one pop reads: the pointer, before or after it has moved (R106). -/
def popAddr (r : RtiParams) (sp : Word) : Word := if r.moveFirst then popMoved r sp else sp

/-- One pop of RTI's stack: a memory read, and the pointer moved (R106). -/
def State.pop (s : State) (r : RtiParams) : Except Refusal (Word × State) :=
  match s.memRead (popAddr r (s.x r.sp)) with
  | .error e => .error e
  | .ok (w, t) => .ok (w, t.setReg r.sp (popMoved r (s.x r.sp)))

/-- Return from interrupt: N, Z, P from one of the two words popped and the PC from the other (R106; R164). -/
def State.restore (s : State) (r : RtiParams) (w1 w2 : Word) : State :=
  let pcw := if r.pcFirst then w1 else w2
  let ccw := if r.pcFirst then w2 else w1
  { s with cc := CC.ofSaved r ccw }.jumpTo pcw

end Sys2Proof.Machine
end

