-- ==== Sys2Proof/Machine/Control.lean ====
section
/-! DEFINITION. The control instructions BR, JMP, JSR, JMPR, JSRR, RET and RTI (spec/42_control.md). -/

namespace Sys2Proof.Machine

/-- BR (R100): to the page address when a selected condition code is set, else to the next instruction. -/
def execBr (n z p : Bool) (po : BitVec 9) (s : State) : StepOutcome :=
  .next (if s.cc.taken n z p then s.jumpTo (s.pageAddr po) else s.advance)

/-- JMP (R101): to the page address itself, with no read of memory. -/
def execJmp (po : BitVec 9) (s : State) : StepOutcome := .next (s.jumpTo (s.pageAddr po))

/-- JSR (R102): the return address to R7, then to the page address; the codes stay. -/
def execJsr (po : BitVec 9) (s : State) : StepOutcome := .next (s.link (s.pageAddr po))

/-- JMPR (R103): to base register plus offset. -/
def execJmpr (base : Reg) (off : BitVec 6) (s : State) : StepOutcome := .next (s.jumpTo (s.baseAddr base off))

/-- JSRR (R104): the return address to R7, then to base register plus offset; the codes stay. Through R7 it is refused
where the launch says so (D7). -/
def execJsrr (base : Reg) (off : BitVec 6) (s : State) : StepOutcome :=
  match s.jsrrTarget base off with
  | none => .refused .jsrrThroughR7
  | some t => .next (s.link t)

/-- RET (R105): R7 to the PC. -/
def execRet (s : State) : StepOutcome := .next s.returnByLink

/-- RTI (R106): two words popped; one gives N, Z and P, the other the PC. It is refused where the launch gives no
stack convention (D11). -/
def execRti (s : State) : StepOutcome :=
  match s.params.rti with
  | none => .refused .rtiNoConvention
  | some r =>
    match s.pop r with
    | .error e => .refused e
    | .ok (w1, t) =>
      match t.pop r with
      | .error e => .refused e
      | .ok (w2, u) => .next (u.restore r w1 w2)

end Sys2Proof.Machine
end

