-- ==== Sys2Proof/Machine/DataMovement.lean ====
section
/-! DEFINITION. The data movement instructions LEA, LD, ST, LDI, STI, LDR and STR (spec/41_data_movement.md). -/

namespace Sys2Proof.Machine

/-- LEA (R81): the page address itself, codes set; no memory access. -/
def execLea (dr : Reg) (po : BitVec 9) (s : State) : StepOutcome := .next (s.result dr (s.pageAddr po))

/-- LD (R82): the word at the page address, codes set. -/
def execLd (dr : Reg) (po : BitVec 9) (s : State) : StepOutcome := s.loadFrom dr (s.pageAddr po)

/-- ST (R83): a register to the page address. -/
def execSt (sr : Reg) (po : BitVec 9) (s : State) : StepOutcome := s.storeTo (s.pageAddr po) (s.x sr)

/-- LDI (R84): the word at the page address is the pointer; the word it names is loaded, codes set. -/
def execLdi (dr : Reg) (po : BitVec 9) (s : State) : StepOutcome :=
  match s.memRead (s.pageAddr po) with
  | .error r => .refused r
  | .ok (ptr, t) => t.loadFrom dr ptr

/-- STI (R85): the word at the page address is the pointer; a register is stored where it points. -/
def execSti (sr : Reg) (po : BitVec 9) (s : State) : StepOutcome :=
  match s.memRead (s.pageAddr po) with
  | .error r => .refused r
  | .ok (ptr, t) => t.storeTo ptr (s.x sr)

/-- LDR (R86): the word at base register plus offset, codes set. -/
def execLdr (dr base : Reg) (off : BitVec 6) (s : State) : StepOutcome := s.loadFrom dr (s.baseAddr base off)

/-- STR (R87): a register to base register plus offset. -/
def execStr (sr base : Reg) (off : BitVec 6) (s : State) : StepOutcome :=
  s.storeTo (s.baseAddr base off) (s.x sr)

end Sys2Proof.Machine
end

