-- ==== Sys2Proof/Machine/Operate.lean ====
section
/-! DEFINITION. The operate instructions ADD, AND and NOT (spec/40_operate.md R70 to R75). -/

namespace Sys2Proof.Machine

/-- ADD, register form (R70): `x[dr] <- x[sr1] + x[sr2]` modulo 2^16 (R75), codes set. -/
def execAddR (dr sr1 sr2 : Reg) (s : State) : StepOutcome := .next (s.result dr (s.x sr1 + s.x sr2))

/-- ADD, immediate form (R71): `x[dr] <- x[sr1] + sext_16(imm5)`, codes set. -/
def execAddI (dr sr1 : Reg) (imm5 : BitVec 5) (s : State) : StepOutcome :=
  .next (s.result dr (s.x sr1 + immOperand imm5))

/-- AND, register form (R72): `x[dr] <- x[sr1] AND x[sr2]`, codes set. -/
def execAndR (dr sr1 sr2 : Reg) (s : State) : StepOutcome := .next (s.result dr (s.x sr1 &&& s.x sr2))

/-- AND, immediate form (R73): `x[dr] <- x[sr1] AND sext_16(imm5)`, codes set. -/
def execAndI (dr sr1 : Reg) (imm5 : BitVec 5) (s : State) : StepOutcome :=
  .next (s.result dr (s.x sr1 &&& immOperand imm5))

/-- NOT (R74): `x[dr] <- NOT x[sr]`, each bit inverted, codes set. -/
def execNotR (dr sr : Reg) (s : State) : StepOutcome := .next (s.result dr (~~~ s.x sr))

end Sys2Proof.Machine
end

