-- ==== Sys2Proof/Machine/Trap.lean ====
section
/-! DEFINITION. TRAP: the hardware rule, and the five service calls as contracts (spec/43_trap.md R120 to R129). -/

namespace Sys2Proof.Machine

/-- Why a service call of contract mode does not complete in this step: it waits for ever, a hang (R129); its string
has not ended after one pass over the whole address space, and it runs on in the state reached (R125); or a memory
access of its string is refused. -/
inductive CallStop where
  | hang
  | runsOn (t : State)
  | refused (r : Refusal)
  deriving DecidableEq, Repr

/-- Wait until the keyboard has a character, letting the devices act gap by gap; a schedule that runs out without one
is a hang (R123, R129). -/
def State.awaitKeyIn (s : State) : List (List DeviceEvent) → Except CallStop State
  | [] => if s.dev.kbReady then .ok { s with env := [] } else .error .hang
  | es :: rest => if s.dev.kbReady then .ok { s with env := es :: rest } else State.awaitKeyIn (s.deviceSteps es) rest

/-- Wait until the CRT is ready, letting the devices act gap by gap, past the end of the schedule too (R124, R129). -/
def State.awaitCrtIn (s : State) : List (List DeviceEvent) → Except CallStop State
  | [] => if s.idle.dev.crtReady then .ok { s.idle with env := [] } else .error .hang
  | es :: rest => if s.dev.crtReady then .ok { s with env := es :: rest } else State.awaitCrtIn (s.deviceSteps es) rest

/-- One character to the console, once the CRT is ready (R124). -/
def State.emitChar (s : State) (c : Byte) : Except CallStop State :=
  let t := s.gap
  match t.awaitCrtIn t.env with
  | .error e => .error e
  | .ok u => .ok (u.display c)

/-- Characters to the console, in order (R125). -/
def State.emit (s : State) : List Byte → Except CallStop State
  | [] => .ok s
  | c :: cs =>
    match s.emitChar c with
    | .error e => .error e
    | .ok t => t.emit cs

/-- One character from the keyboard, once it has one; the character is consumed (R123). -/
def State.takeKey (s : State) : Except CallStop (Byte × State) :=
  let t := s.gap
  match t.awaitKeyIn t.env with
  | .error e => .error e
  | .ok u => .ok (u.dev.kbChar, { u with dev := { u.dev with kbReady := false } })

/-- The string at an address: the low bytes of consecutive words up to a word x0000, which is not part of it (R125,
D23), and whether that word has been met among the `fuel` words looked at. -/
def State.readString : Nat → State → Word → Except Refusal (List Byte × Bool × State)
  | 0, s, _ => .ok ([], false, s)
  | fuel + 1, s, a =>
    match s.memRead a with
    | .error r => .error r
    | .ok (w, t) =>
      if w = 0#16 then .ok ([], true, t)
      else
        match State.readString fuel t (a + 1#16) with
        | .error r => .error r
        | .ok (cs, ended, u) => .ok (w.extractLsb' 0 8 :: cs, ended, u)

/-- The string at an address, or one pass of it over the whole address space (R125). -/
def State.stringAt (s : State) (a : Word) : Except Refusal (List Byte × Bool × State) := State.readString 65536 s a

/-- N, Z and P after a service call: one of the three patterns, as a free value chooses (R129). -/
def State.freeCodes (s : State) : State := { s.afterDraw with cc := CC.ofDraw s.drawn }

/-- A register the operating system may have changed: a free value (R129). -/
def State.freeReg (s : State) (r : Reg) : State := s.afterDraw.setReg r s.drawn

/-- Ordinary memory the operating system may have changed: free stores, none of them to a device (R129). -/
def State.freeMemory (s : State) : State :=
  (Config.freeStores s.draws).foldl (fun t c => if t.ordinary c.1 then t.setWord c.1 c.2 else t) s.afterDraw

/-- R1 to R6 and ordinary memory after a service call: unchanged under the named assumption `os_preserves`, free
without it (R129). -/
def State.osEffects (s : State) : State :=
  if s.params.osPreserves then s
  else
    ((((((s.freeReg .r1).freeReg .r2).freeReg .r3).freeReg .r4).freeReg .r5).freeReg .r6).freeMemory

/-- The end of a service call that returns: `x[7] <- ia + 1; pc <- ia + 1`, and what the operating system may have
changed (R129). -/
def State.returnFromCall (s : State) : State := (s.osEffects.freeCodes).link s.nextPc

/-- What a service call answers: its state; while it waits, the same state, so that the TRAP is met again (a wait that
never ends is a hang, R129); while its string runs on, the state after one pass, which meets the TRAP again; or the
refusal of a memory access. -/
def State.callOutcome (s : State) : Except CallStop State → StepOutcome
  | .ok t => .next t
  | .error .hang => .next s
  | .error (.runsOn t) => .next t
  | .error (.refused r) => .refused r

/-- GETC (R123): a character from the keyboard to R0, its high bits cleared, not echoed. -/
def State.callGetc (s : State) : Except CallStop State :=
  match s.takeKey with
  | .error e => .error e
  | .ok (c, t) => .ok (t.returnFromCall.setReg .r0 (c.setWidth 16))

/-- OUT (R124): the character in R0[7:0] to the console. -/
def State.callOut (s : State) : Except CallStop State :=
  match s.emitChar ((s.x .r0).extractLsb' 0 8) with
  | .error e => .error e
  | .ok t => .ok t.returnFromCall

/-- The string R0 points to, to the console (R125). Whether the routine reads a character, displays it and reads the
next, the spec does not say: that the whole string is read before the first character is displayed is the model's
choice (DESIGN CHOICE; log 28). It is seen only where the string runs over a device register. A string with no x0000
runs on through memory, wrapping at xFFFF, without bound: after the 65536 words of one pass the next word is again the
one R0 points to, so the call goes on as it began, with its output so far displayed (R125; U18). -/
def State.emitStringR0 (s : State) : Except CallStop State :=
  match s.stringAt (s.x .r0) with
  | .error r => .error (.refused r)
  | .ok (cs, ended, t) =>
    match t.emit cs with
    | .error e => .error e
    | .ok u => if ended then .ok u else .error (.runsOn u)

/-- PUTS (R125): the string R0 points to, to the console. -/
def State.callPuts (s : State) : Except CallStop State :=
  match s.emitStringR0 with
  | .error e => .error e
  | .ok t => .ok t.returnFromCall

/-- IN (R126): the prompt R0 points to, to the console; a character from the keyboard, echoed, to R0. -/
def State.callIn (s : State) : Except CallStop State :=
  match s.emitStringR0 with
  | .error e => .error e
  | .ok t =>
    match t.takeKey with
    | .error e => .error e
    | .ok (c, u) =>
      match u.emitChar c with
      | .error e => .error e
      | .ok v => .ok (v.returnFromCall.setReg .r0 (c.setWidth 16))

/-- HALT's message on the console: a free sequence of characters, the ready bit free after it (R127, U15). -/
def State.haltMessage (s : State) : State :=
  { s.afterDraw with
    dev := { s.dev with crtOut := s.dev.crtOut ++ Config.haltMessage s.draws, crtReady := s.drawn.getLsbD 0 } }

/-- HALT's stop: a word with bit [15] = 0, its other bits free, written to MCR (R127; spec/10_state.md R22). -/
def State.haltStop (s : State) : State := s.afterDraw.writeMcr (0#1 ++ s.drawn.extractLsb' 0 15)

/-- HALT (R127): a message, and the clock enable cleared. It does not return: R7 holds the return address and the
final PC is free (R129). -/
def State.callHalt (s : State) : State :=
  let t := s.gap.haltMessage.haltStop.returnFromCall
  t.afterDraw.jumpTo t.drawn

/-- TRAP in contract mode: the five vectors with a defined service (R121, R129); any other is refused (R128). -/
def State.serviceCall (s : State) (vec : BitVec 8) : StepOutcome :=
  if vec = 0x20#8 then s.callOutcome s.callGetc
  else if vec = 0x21#8 then s.callOutcome s.callOut
  else if vec = 0x22#8 then s.callOutcome s.callPuts
  else if vec = 0x23#8 then s.callOutcome s.callIn
  else if vec = 0x25#8 then .next s.callHalt
  else .refused (.trapNoService vec)

/-- TRAP (R120, R129): by the launch parameter `trap_mode`, the hardware rule or the service call. -/
def execTrap (vec : BitVec 8) (s : State) : StepOutcome :=
  match s.params.trapMode with
  | .hardware => s.trapEntry vec
  | .contract => s.serviceCall vec

end Sys2Proof.Machine
end

