-- ==== Sys2Proof/Machine/Dispatch.lean ====
section
/-! DEFINITION. One arm per constructor of Instr, each a direct call of its meaning. -/

namespace Sys2Proof.Machine

def exec (i : Instr) (s : State) : Host.Outcome State Fault Refusal :=
  match i with
  | .br n z p po => Sys2Proof.Machine.execBr n z p po s
  | .addR dr sr1 sr2 => Sys2Proof.Machine.execAddR dr sr1 sr2 s
  | .addI dr sr1 imm5 => Sys2Proof.Machine.execAddI dr sr1 imm5 s
  | .ld dr po => Sys2Proof.Machine.execLd dr po s
  | .st sr po => Sys2Proof.Machine.execSt sr po s
  | .jmp po => Sys2Proof.Machine.execJmp po s
  | .jsr po => Sys2Proof.Machine.execJsr po s
  | .andR dr sr1 sr2 => Sys2Proof.Machine.execAndR dr sr1 sr2 s
  | .andI dr sr1 imm5 => Sys2Proof.Machine.execAndI dr sr1 imm5 s
  | .ldr dr base off => Sys2Proof.Machine.execLdr dr base off s
  | .str sr base off => Sys2Proof.Machine.execStr sr base off s
  | .rti => Sys2Proof.Machine.execRti s
  | .notR dr sr => Sys2Proof.Machine.execNotR dr sr s
  | .ldi dr po => Sys2Proof.Machine.execLdi dr po s
  | .sti sr po => Sys2Proof.Machine.execSti sr po s
  | .jmpr base off => Sys2Proof.Machine.execJmpr base off s
  | .jsrr base off => Sys2Proof.Machine.execJsrr base off s
  | .ret => Sys2Proof.Machine.execRet s
  | .lea dr po => Sys2Proof.Machine.execLea dr po s
  | .trap vec => Sys2Proof.Machine.execTrap vec s

end Sys2Proof.Machine
end

