-- ==== Sys2Proof/Machine/Step.lean ====
section
/-! DEFINITION. One step of the machine: fetch, decode, execute (spec/00_scope.md R8), while the clock enable bit is 1
(spec/60_exceptions.md R168). -/

namespace Sys2Proof.Machine

/-- Fetch, decode and execute, once the devices have had the gap before the fetch (R8, R39). -/
def runInstruction (s : State) : Host.Outcome State Fault Refusal :=
  match s.fetch with
  | .error r => .refused r
  | .ok w =>
    match decode s.params.strictDecode w with
    | .error why => .refused (.noEncoding why)
    | .ok i => exec i s

/-- One step. A machine whose clock enable bit is 0 has none: the final state of a run (R168;
spec/70_reset_and_hazards.md R196). -/
def step (s : State) : Host.Outcome State Fault Refusal :=
  if s.dev.clockEnable then runInstruction s.gap else .fault .clockStopped

/-- The machine with an instruction word stored where the next step fetches: at the program counter (R8). -/
def State.withFetchWord (s : State) (nbits w : Nat) : State := s.setWord s.pc (BitVec.ofNat 16 (w % 2 ^ nbits))

end Sys2Proof.Machine
end

