-- ==== Sys2Proof/Machine/Assembler.lean ====
section
/-! DEFINITION. The assembler of spec/44_assembler.md: program text to the words of a memory image, and the launch of
such an image (spec/10_state.md R26). It is no part of the machine's step; it is here because spec/00_scope.md R3
puts it in scope. -/

namespace Sys2Proof.Machine

/-- Why a text does not assemble. R142 and R144 name the two errors offPage and outOfRange; the others are for text
the source gives no meaning (logs 37, 39 to 47). -/
inductive AsmError where
  /-- a quote is not closed -/
  | badString
  /-- the first word of a statement is no mnemonic, alias or directive of R140, R143, R145, R146 -/
  | unknownMnemonic
  /-- the operands do not have the form of R140 or of the directive -/
  | badOperands
  /-- a number outside its field (R144) -/
  | outOfRange
  /-- a label on another page (R142) -/
  | offPage
  | undefinedLabel
  | duplicateLabel
  /-- a word to place before any .ORIG (R147) -/
  | noOrigin
  /-- a character with no ASCII code in a string (R152; log 43) -/
  | notAscii
  deriving DecidableEq, Repr

/-- What a line is cut into: words, commas, and quoted strings. -/
inductive Token where
  | word (name : List Char)
  | comma
  | quoted (text : List Char)
  deriving DecidableEq, Repr

/-- An operand as R141 spells it. -/
inductive Operand where
  | reg (r : Reg)
  | num (n : Int)
  | label (name : String)
  | quoted (text : List Char)
  deriving DecidableEq, Repr

/-- A statement: an instruction line (R140, R143, R145) or a directive (R147 to R152). -/
inductive Statement where
  | instr (mnemonic : String) (operands : List Operand)
  | orig (value : Word)
  | endOfText
  | fill (value : Word)
  | blkw (count : Nat)
  | stringz (text : List Char)
  deriving DecidableEq, Repr

/-- A line: the label in front, if any, and the statement (R150). -/
structure Line where
  label : Option String
  body : Statement
  deriving DecidableEq, Repr

/-- The word being read, closed and put in front of the tokens after it. -/
def flushWord (cur : List Char) (rest : List Token) : List Token :=
  if cur = [] then rest else .word cur.reverse :: rest

/-- A line cut into tokens; text from a semicolon on is a comment (R141). `cur` is the word or string being read, last
character first, and `quote` says which of the two it is. That a string has no escape sequences is the model's choice:
a backslash is a character like any other, and the next quote ends the string (DESIGN CHOICE; log 42). So is what
separates words, for which the spec has no rule: blanks, tabs and carriage returns, and a quote, which ends the word
before it; a semicolon inside quotes begins no comment (DESIGN CHOICE; log 47). -/
def lexFrom (cur : List Char) (quote : Bool) : List Char → Except AsmError (List Token)
  | [] => if quote then .error .badString else .ok (flushWord cur [])
  | c :: cs =>
    if quote then
      if c = '"' then (lexFrom [] false cs).map (.quoted cur.reverse :: ·) else lexFrom (c :: cur) true cs
    else if c = ';' then .ok (flushWord cur [])
    else if c = '"' then (lexFrom [] true cs).map (flushWord cur)
    else if c = ',' then (lexFrom [] false cs).map (fun ts => flushWord cur (.comma :: ts))
    else if c = ' ' ∨ c = '\t' ∨ c = '\r' then (lexFrom [] false cs).map (flushWord cur)
    else lexFrom (c :: cur) false cs

/-- The value of a digit in a base up to 16. -/
def digitValue (base : Nat) (c : Char) : Option Nat :=
  let v := if '0' ≤ c ∧ c ≤ '9' then c.toNat - '0'.toNat
    else if 'A' ≤ c ∧ c ≤ 'F' then c.toNat - 'A'.toNat + 10
    else if 'a' ≤ c ∧ c ≤ 'f' then c.toNat - 'a'.toNat + 10
    else 16
  if v < base then some v else none

/-- The number some digits spell after the part `acc` already read. -/
def digitsFrom (base acc : Nat) : List Char → Option Nat
  | [] => some acc
  | c :: cs => (digitValue base c).bind fun v => digitsFrom base (acc * base + v) cs

/-- The number that at least one digit spells. -/
def digits (base : Nat) (cs : List Char) : Option Nat := if cs = [] then none else digitsFrom base 0 cs

/-- A number as R141 spells it: `#` and decimal digits (`#-` for a negative one), `x` and hexadecimal digits, or bare
decimal digits. That the `x` is lower case alone and a hexadecimal digit of either case is the model's choice (DESIGN
CHOICE; log 39). -/
def parseNumber : List Char → Option Int
  | '#' :: '-' :: cs => (digits 10 cs).map (fun n => -(n : Int))
  | '#' :: cs => (digits 10 cs).map Int.ofNat
  | 'x' :: cs => (digits 16 cs).map Int.ofNat
  | cs => (digits 10 cs).map Int.ofNat

/-- A register: the letter R and one digit 0 to 7 (R141). That the letter is upper case alone is the model's choice
(DESIGN CHOICE; log 39). -/
def parseReg : List Char → Option Reg
  | ['R', c] => (digitValue 8 c).map fun v => Reg.ofBits (BitVec.ofNat 3 v)
  | _ => none

/-- An operand: a register, a number, or else a label (R141). That every other word is a label, whatever its
characters and its length, is the model's choice (DESIGN CHOICE; log 40). -/
def parseOperand : Token → Option Operand
  | .comma => none
  | .quoted text => some (.quoted text)
  | .word name =>
    match parseReg name, parseNumber name with
    | some r, _ => some (.reg r)
    | none, some n => some (.num n)
    | none, none => some (.label (String.ofList name))

/-- Operands separated by commas (R140). -/
def parseOperands : List Token → Option (List Operand)
  | [] => some []
  | [t] => (parseOperand t).map ([·])
  | t :: .comma :: u :: ts => (parseOperand t).bind fun o => (parseOperands (u :: ts)).map (o :: ·)
  | _ => none

/-- The mnemonics of R140 and R143 and the aliases of R145. -/
def mnemonics : List String :=
  ["ADD", "AND", "NOT", "LEA", "LD", "ST", "LDI", "STI", "LDR", "STR"] ++
  ["BR", "BRn", "BRz", "BRp", "BRnz", "BRnp", "BRzp", "BRnzp"] ++
  ["JMP", "JSR", "JMPR", "JSRR", "RET", "RTI", "TRAP", "GETC", "OUT", "PUTS", "IN", "HALT"]

/-- A number between two bounds, as the bits of a field (R144). -/
def fieldIn (lo hi : Int) (w : Nat) (n : Int) : Except AsmError (BitVec w) :=
  if lo ≤ n ∧ n ≤ hi then .ok (BitVec.ofInt w n) else .error .outOfRange

/-- A 16-bit value under either reading, signed or unsigned (R149). -/
def wordValue (n : Int) : Except AsmError Word := fieldIn (-32768) 65535 16 n

/-- The statement that a mnemonic or directive and its operands make. Three points are the model's choice: the ranges
of the values of `.ORIG`, `.FILL` and `.BLKW` (DESIGN CHOICE; log 37), mnemonics and directives are told by case
(DESIGN CHOICE; log 39), and a label where a number is expected, as the value of `.FILL`, is an error (DESIGN CHOICE;
log 41). -/
def statementOf (name : String) (ops : List Operand) : Except AsmError Statement :=
  match name, ops with
  | ".ORIG", [.num n] => (fieldIn 0 65535 16 n).map .orig
  | ".END", [] => .ok .endOfText
  | ".FILL", [.num n] => (wordValue n).map .fill
  | ".BLKW", [.num n] => if 0 ≤ n ∧ n ≤ 65536 then .ok (.blkw n.toNat) else .error .outOfRange
  | ".STRINGZ", [.quoted text] => .ok (.stringz text)
  | _, _ => if name ∈ mnemonics then .ok (.instr name ops)
            else if name ∈ [".ORIG", ".END", ".FILL", ".BLKW", ".STRINGZ"] then .error .badOperands
            else .error .unknownMnemonic

/-- Does the word begin a statement: a mnemonic, or a directive, which starts with a period (R146)? -/
def beginsStatement (name : List Char) : Bool := name.head? == some '.' || mnemonics.contains (String.ofList name)

/-- A statement from its tokens. -/
def parseStatement : List Token → Except AsmError Statement
  | .word name :: ts =>
    match parseOperands ts with
    | some ops => statementOf (String.ofList name) ops
    | none => .error .badOperands
  | _ => .error .unknownMnemonic

/-- A line of text, or nothing where it holds no statement (R140, R150). That any first word that begins no statement
is a label, whatever its characters and its length, is the model's choice (DESIGN CHOICE; log 40); so is that a label
may stand in front of any statement, of `.ORIG` and `.END` too (DESIGN CHOICE; log 45). -/
def parseLine (text : List Char) : Except AsmError (Option Line) :=
  match lexFrom [] false text with
  | .error e => .error e
  | .ok [] => .ok none
  | .ok (.word name :: ts) =>
    if beginsStatement name then (parseStatement (.word name :: ts)).map fun b => some ⟨none, b⟩
    else (parseStatement ts).map fun b => some ⟨some (String.ofList name), b⟩
  | .ok _ => .error .unknownMnemonic

/-- The lines of a text, up to `.END`, the last line of a program (R148). Two points are the model's choice: a text with
no `.END` ends at its last line (DESIGN CHOICE; log 46), and an `.END` line is kept where it has a label, for the
label's sake (DESIGN CHOICE; log 45). -/
def parseLines : List (List Char) → Except AsmError (List Line)
  | [] => .ok []
  | t :: ts =>
    match parseLine t with
    | .error e => .error e
    | .ok none => parseLines ts
    | .ok (some l) => if l.body = .endOfText then .ok (if l.label.isSome then [l] else []) else (parseLines ts).map (l :: ·)

/-- How many words a statement takes (R146, R149, R151, R152). -/
def Statement.size : Statement → Nat
  | .instr _ _ => 1
  | .orig _ => 0
  | .endOfText => 0
  | .fill _ => 1
  | .blkw n => n
  | .stringz text => text.length + 1

/-- The labels and the addresses they stand for. -/
abbrev Symbols := List (String × Word)

/-- The first pass: each statement at its address, and the value of each label, the location counter of its line
(R146, R150). Two points are the model's choice: labels which differ in case are different labels (DESIGN CHOICE; log
39), and a label in front of `.ORIG` is the address that `.ORIG` sets (DESIGN CHOICE; log 45). -/
def placeLines : List Line → Option Word → Except AsmError (List (Word × Statement) × Symbols)
  | [], _ => .ok ([], [])
  | ⟨label, body⟩ :: ls, lc =>
    let here := match body with
      | .orig v => some v
      | _ => lc
    match here with
    | none => .error .noOrigin
    | some a =>
      match placeLines ls (some (a + BitVec.ofNat 16 body.size)) with
      | .error e => .error e
      | .ok (placed, syms) =>
        match label with
        | none => .ok ((a, body) :: placed, syms)
        | some name =>
          if (syms.lookup name).isSome then .error .duplicateLabel
          else .ok ((a, body) :: placed, (name, a) :: syms)

/-- The page offset of a label, for an instruction at `ia`; a label on another page is an error (R142). -/
def labelOffset (syms : Symbols) (ia : Word) (name : String) : Except AsmError (BitVec 9) :=
  match syms.lookup name with
  | none => .error .undefinedLabel
  | some a => if a.extractLsb' 9 7 = ia.extractLsb' 9 7 then .ok (a.extractLsb' 0 9) else .error .offPage

/-- The instruction of an instruction line at `ia` (R140), with the branch mnemonics of R143 and the trap aliases of
R145. Two points are the model's choice: a `pageoffset9` operand is a label alone, and a number in its place, as the
examples of spec/41_data_movement.md R81 to R85 and spec/42_control.md R100 write the encoded field, is an error
(DESIGN CHOICE; log 44); and a label where a number is expected is an error (DESIGN CHOICE; log 41). -/
def assembleInstr (syms : Symbols) (ia : Word) (name : String) (ops : List Operand) : Except AsmError Instr :=
  let page (l : String) (f : BitVec 9 → Instr) : Except AsmError Instr := (labelOffset syms ia l).map f
  match name, ops with
  | "ADD", [.reg d, .reg a, .reg b] => .ok (.addR d a b)
  | "ADD", [.reg d, .reg a, .num n] => (fieldIn (-16) 15 5 n).map (.addI d a)
  | "AND", [.reg d, .reg a, .reg b] => .ok (.andR d a b)
  | "AND", [.reg d, .reg a, .num n] => (fieldIn (-16) 15 5 n).map (.andI d a)
  | "NOT", [.reg d, .reg a] => .ok (.notR d a)
  | "LEA", [.reg d, .label l] => page l (.lea d)
  | "LD", [.reg d, .label l] => page l (.ld d)
  | "ST", [.reg d, .label l] => page l (.st d)
  | "LDI", [.reg d, .label l] => page l (.ldi d)
  | "STI", [.reg d, .label l] => page l (.sti d)
  | "LDR", [.reg d, .reg b, .num n] => (fieldIn 0 63 6 n).map (.ldr d b)
  | "STR", [.reg d, .reg b, .num n] => (fieldIn 0 63 6 n).map (.str d b)
  | "BR", [.label l] => page l (.br true true true)
  | "BRn", [.label l] => page l (.br true false false)
  | "BRz", [.label l] => page l (.br false true false)
  | "BRp", [.label l] => page l (.br false false true)
  | "BRnz", [.label l] => page l (.br true true false)
  | "BRnp", [.label l] => page l (.br true false true)
  | "BRzp", [.label l] => page l (.br false true true)
  | "BRnzp", [.label l] => page l (.br true true true)
  | "JMP", [.label l] => page l .jmp
  | "JSR", [.label l] => page l .jsr
  | "JMPR", [.reg b, .num n] => (fieldIn 0 63 6 n).map (.jmpr b)
  | "JSRR", [.reg b, .num n] => (fieldIn 0 63 6 n).map (.jsrr b)
  | "RET", [] => .ok .ret
  | "RTI", [] => .ok .rti
  | "TRAP", [.num n] => (fieldIn 0 255 8 n).map .trap
  | "GETC", [] => .ok (.trap 0x20#8)
  | "OUT", [] => .ok (.trap 0x21#8)
  | "PUTS", [] => .ok (.trap 0x22#8)
  | "IN", [] => .ok (.trap 0x23#8)
  | "HALT", [] => .ok (.trap 0x25#8)
  | _, _ => .error .badOperands

/-- Words at consecutive addresses. -/
def cellsFrom (a : Word) : List Word → List (Word × Word)
  | [] => []
  | w :: ws => (a, w) :: cellsFrom (a + 1#16) ws

/-- The words of a string: the ASCII code of each character, zero-extended, then x0000 (R152, D23). That a character
with no ASCII code is an error is the model's choice (DESIGN CHOICE; log 43). -/
def stringWords (text : List Char) : Except AsmError (List Word) :=
  if text.all (fun c => decide (c.toNat < 128)) then .ok (text.map (fun c => BitVec.ofNat 16 c.toNat) ++ [0#16])
  else .error .notAscii

/-- The words a statement puts into the image: an instruction, a value, a string of one character a word ended by
x0000; `.BLKW` reserves words without content (R140, R149, R151, R152). -/
def assembleStatement (syms : Symbols) (a : Word) : Statement → Except AsmError (List (Word × Word))
  | .instr name ops => (assembleInstr syms a name ops).map fun i => [(a, encode i)]
  | .orig _ => .ok []
  | .endOfText => .ok []
  | .fill v => .ok [(a, v)]
  | .blkw _ => .ok []
  | .stringz text => (stringWords text).map (cellsFrom a)

/-- The second pass: the words of all the statements. -/
def assemblePlaced (syms : Symbols) : List (Word × Statement) → Except AsmError (List (Word × Word))
  | [] => .ok []
  | (a, b) :: ps =>
    match assembleStatement syms a b with
    | .error e => .error e
    | .ok cells => (assemblePlaced syms ps).map (cells ++ ·)

/-- A program, one text per line, to the words of its memory image (R140 to R152). -/
def assemble (lines : List String) : Except AsmError (List (Word × Word)) :=
  match parseLines (lines.map String.toList) with
  | .error e => .error e
  | .ok ls =>
    match placeLines ls none with
    | .error e => .error e
    | .ok (placed, syms) => assemblePlaced syms placed

/-- A memory image put into ordinary memory, as the host does before a run (spec/60_exceptions.md R173). -/
def State.load (s : State) (image : List (Word × Word)) : State := image.foldl (fun t c => t.setWord c.1 c.2) s

/-- A launch: the image in memory and the PC at `pc_init` (spec/70_reset_and_hazards.md R190). -/
def State.launch (s : State) (image : List (Word × Word)) (pcInit : Word) : State := (s.load image).jumpTo pcInit

end Sys2Proof.Machine
end

