-- ==== Sys2Proof/Safety.lean ====
section
/-! DEFINITION. The terms claims are stated in: launch states, the invariants of the machine, frames, and what each
instruction names as its destination. -/

namespace Sys2Proof.Machine

open Sys2Proof

/-- Memory is in its canonical form. -/
abbrev State.MemoryCanonical (s : State) : Prop := Memory.wf s.mem = true

/-- Exactly one of N, Z, P is 1 (spec/10_state.md R17). -/
abbrev State.OneHot (s : State) : Prop := s.cc.oneHot = true

/-- What spec/10_state.md R26 fixes of the launch state, the premise `kb_clean` included. -/
def State.Launched (s : State) : Prop :=
  s.dev.clockEnable = true ∧ s.dev.kbReady = false ∧ s.dev.crtOut = [] ∧ s.dev.mcrWritten = false ∧ s.OneHot

/-- The condition codes that `setcc` gives for a value (R14): N when it is negative, Z when it is zero, P when it is
positive, the value read as a two's complement number. -/
def CodesOf (v : Word) (c : CC) : Prop :=
  (c.n = true ↔ v.toInt < 0) ∧ (c.z = true ↔ v.toInt = 0) ∧ (c.p = true ↔ 0 < v.toInt)

/-- Every general register but the listed ones holds what it held. -/
def KeepsRegsBut (rs : List Reg) (s t : State) : Prop := ∀ r, r ∉ rs → t.x r = s.x r

/-- Every word of ordinary memory reads as before. -/
def KeepsWords (s t : State) : Prop := ∀ a : Word, t.word a = s.word a

/-- Every word of ordinary memory but the one at `a` reads as before. -/
def KeepsWordsBut (a : Word) (s t : State) : Prop := ∀ b : Word, b ≠ a → t.word b = s.word b

/-- The devices, their schedule, the free values and the launch parameters are as they were. -/
def KeepsDevices (s t : State) : Prop :=
  t.dev = s.dev ∧ t.env = s.env ∧ t.draws = s.draws ∧ t.params = s.params

/-- An instruction that sets the codes from the value it writes to `dr` and touches nothing else but the PC, which
moves to the next instruction: `v` is the value, and `u` the machine as the instruction's memory accesses left it. -/
def ResultIs (s u t : State) (dr : Reg) (v : Word) : Prop :=
  t.x dr = v ∧ CodesOf v t.cc ∧ t.pc.toNat = (s.pc.toNat + 1) % 65536 ∧
    KeepsRegsBut [dr] s t ∧ KeepsWords s t ∧ KeepsDevices u t

/-- The address is the page address of `po` (spec/41_data_movement.md R88): the page of the instruction's own address
with `po` in the low 9 bits; under the other value of `page_base` (spec/20_memory.md R32), that page of `ia + 1`. -/
def IsPageAddress (s : State) (po : BitVec 9) (a : Word) : Prop :=
  (s.params.pageBase = .ia → a.toNat = s.pc.toNat / 512 * 512 + po.toNat) ∧
  (s.params.pageBase = .iaPlus1 → a.toNat = (s.pc.toNat + 1) % 65536 / 512 * 512 + po.toNat)

/-- The address is the base+offset address (spec/41_data_movement.md R89): the sum, the offset taken as positive. -/
def IsBaseAddress (s : State) (base : Reg) (off : BitVec 6) (a : Word) : Prop :=
  a.toNat = ((s.x base).toNat + off.toNat) % 65536

/-- An instruction that changes the PC alone: `v` is where it goes. -/
def JumpsTo (s t : State) (v : Word) : Prop :=
  t.pc = v ∧ t.cc = s.cc ∧ KeepsRegsBut [] s t ∧ KeepsWords s t ∧ KeepsDevices s t

/-- An instruction that saves the return address in R7 and goes to `v`, and changes nothing else. -/
def LinksTo (s u t : State) (v : Word) : Prop :=
  t.pc = v ∧ (t.x .r7).toNat = (s.pc.toNat + 1) % 65536 ∧ t.cc = s.cc ∧
    KeepsRegsBut [.r7] s t ∧ KeepsWords s t ∧ KeepsDevices u t

/-- An instruction that stores `v` to the word at `a` of ordinary memory and moves to the next instruction. -/
def StoresWord (s u t : State) (a v : Word) : Prop :=
  t.word a = v ∧ KeepsWordsBut a s t ∧ t.cc = s.cc ∧ t.pc.toNat = (s.pc.toNat + 1) % 65536 ∧
    KeepsRegsBut [] s t ∧ KeepsDevices u t

/-- The instruction `i` in `s` loads `dr` from the address `a`, its access coming after the machine has reached `u`:
from ordinary memory; from a device register, whose value and effect `readDevice` gives; or it is refused where there
is no memory (spec/20_memory.md R35). -/
def LoadsFrom (i : Instr) (s u : State) (a : Word) (dr : Reg) : Prop :=
  (s.ordinary a = true → ∃ t, exec i s = .next t ∧ ResultIs s u.gap t dr (s.word a)) ∧
  (∀ d, deviceAt a = some d →
    ∃ t, exec i s = .next t ∧ ResultIs s (u.gap.readDevice d).2 t dr (u.gap.readDevice d).1) ∧
  (deviceAt a = none → s.isRam a = false → exec i s = .refused (.readUnpopulated a))

/-- An instruction that changes no register but the PC, no code and no word of memory, and whose effect on the
devices is `dev`: a store to a device register. -/
def StoresDevice (s u t : State) (dev : Devices) : Prop :=
  t.dev = dev ∧ t.env = u.env ∧ t.params = s.params ∧ t.cc = s.cc ∧
    t.pc.toNat = (s.pc.toNat + 1) % 65536 ∧ KeepsRegsBut [] s t ∧ KeepsWords s t

/-- The instruction `i` in `s` stores `v` to the address `a`, its access coming after the machine has reached `u`: to
ordinary memory; to CRTDR, whose low byte is displayed when the CRT is ready and whose write is refused otherwise; to
MCR; to one of the three registers a program only reads, which is refused; or where there is no memory, which is
refused (spec/20_memory.md R35; spec/10_state.md R18 to R22; spec/60_exceptions.md R167, R168). -/
def StoresTo (i : Instr) (s u : State) (a v : Word) : Prop :=
  (s.ordinary a = true → s.MemoryCanonical → ∃ t, exec i s = .next t ∧ StoresWord s u.gap t a v) ∧
  (deviceAt a = some .crtdr → u.gap.dev.crtReady = true → ∃ t r, exec i s = .next t ∧
    StoresDevice s u.gap t
      { u.gap.dev with crtOut := u.gap.dev.crtOut ++ [v.extractLsb' 0 8], crtReady := r }) ∧
  (deviceAt a = some .crtdr → u.gap.dev.crtReady = false → exec i s = .refused .crtNotReady) ∧
  (deviceAt a = some .mcr → ∃ t, exec i s = .next t ∧
    StoresDevice s u.gap t
      { u.gap.dev with clockEnable := v.getLsbD 15, mcrLow := v.extractLsb' 0 15, mcrWritten := true }) ∧
  (∀ d, deviceAt a = some d → d = .crtsr ∨ d = .kbsr ∨ d = .kbdr → exec i s = .refused (.writeReadOnly d)) ∧
  (deviceAt a = none → s.isRam a = false → exec i s = .refused (.writeUnpopulated a))

/-- What holds after a service call that returns (spec/43_trap.md R129): R7 and the PC hold the return address, one
code is set, and, under the named assumption `os_preserves`, R1 to R6 and ordinary memory are as they were. -/
def CallReturned (s t : State) : Prop :=
  t.x .r7 = s.nextPc ∧ t.pc = s.nextPc ∧ t.OneHot ∧
    (s.params.osPreserves = true → KeepsRegsBut [.r0, .r7] s t ∧ KeepsWords s t)

/-- The characters of a string: the low byte of each word (R125). -/
def charsOf (ws : List Word) : List Byte := ws.map (fun w => w.extractLsb' 0 8)

/-- Words that stand in ordinary memory at consecutive addresses, none of them x0000: a string, or the front of one
(spec/43_trap.md R125). -/
def HoldsWords (s : State) : Word → List Word → Prop
  | _, [] => True
  | a, w :: ws => s.ordinary a = true ∧ s.word a = w ∧ w ≠ 0#16 ∧ HoldsWords s (a + 1#16) ws

/-- A string in ordinary memory: nonzero words at consecutive addresses, then a word x0000 (spec/43_trap.md R125). -/
def HoldsString (s : State) (a : Word) (ws : List Word) : Prop :=
  HoldsWords s a ws ∧ s.ordinary (a + BitVec.ofNat 16 ws.length) = true ∧
    s.word (a + BitVec.ofNat 16 ws.length) = 0#16

/-- A read of the word at `a` answers `w` and leads to `u`: of ordinary memory, or of a device register, whose value
and effect `readDevice` gives (spec/20_memory.md R35). -/
def ReadsWord (s : State) (a w : Word) (u : State) : Prop :=
  (s.ordinary a = true ∧ w = s.word a ∧ u = s.gap) ∨ ∃ d, deviceAt a = some d ∧ s.gap.readDevice d = (w, u)

/-- How many gaps of a schedule make the CRT ready. -/
def crtGaps (env : List (List DeviceEvent)) : Nat := env.countP (fun es => decide (DeviceEvent.crtReady ∈ es))

/-- The CRT becomes ready often enough for `n` characters that are sent after `skip` gaps: always, under the named
assumption `crt_eventually_ready` (spec/60_exceptions.md R167); or in `n` of the gaps scheduled after those; or, where
it is ready now, in one fewer, the first character's own gap not counted. -/
def CrtServes (s : State) (skip n : Nat) : Prop :=
  s.params.crtEventuallyReady = true ∨ n ≤ crtGaps (s.env.drop skip) ∨
    (s.dev.crtReady = true ∧ n ≤ 1 + crtGaps (s.env.drop (skip + 1)))

/-- The CRT is ready or will become so, by the schedule or under `crt_eventually_ready` (spec/60_exceptions.md R167). -/
def CrtComes (s : State) : Prop :=
  s.dev.crtReady = true ∨ (∃ es ∈ s.env, DeviceEvent.crtReady ∈ es) ∨ s.params.crtEventuallyReady = true

/-- Reads of consecutive addresses from `a` on, of ordinary memory or of device registers, that answer the words of the
list, none of them x0000, lead from `s` to `t`. -/
def ReadsNonzero : State → Word → List Word → State → Prop
  | s, _, [], t => t = s
  | s, a, w :: ws, t => ∃ u, ReadsWord s a w u ∧ w ≠ 0#16 ∧ ReadsNonzero u (a + 1#16) ws t

/-- One pass of a string that has no end: its words are displayed, and the machine stands where it stood, with nothing
but the devices changed, so that the call goes on with the next pass (R125; log 28). -/
def StringPass (s : State) (ws : List Word) (t : State) : Prop :=
  t.dev.crtOut = s.dev.crtOut ++ charsOf ws ∧ t.pc = s.pc ∧ t.cc = s.cc ∧ t.params = s.params ∧
    KeepsRegsBut [] s t ∧ KeepsWords s t

/-- Where the string of PUTS or the prompt of IN, `i`, does not end in ordinary memory (R125; log 28). Where a word of
it has no memory the call is refused with that word's address. Where no word of ordinary memory is x0000, the call runs
on through memory without bound, wrapping at xFFFF, unless a device register the string runs over reads as x0000: the
words of each pass over the whole address space are displayed where the CRT serves them, and where it never is ready
the call waits (log 27). -/
def StringStops (i : Instr) (s : State) : Prop :=
  (∀ ws, HoldsWords s (s.x .r0) ws → ws.length < 65536 → deviceAt (s.x .r0 + BitVec.ofNat 16 ws.length) = none →
    s.isRam (s.x .r0 + BitVec.ofNat 16 ws.length) = false →
    exec i s = .refused (.readUnpopulated (s.x .r0 + BitVec.ofNat 16 ws.length))) ∧
  ((∀ a, deviceAt a = none → s.isRam a = true ∧ s.word a ≠ 0#16) →
    (∃ ws t d u, ws.length < 65536 ∧ ReadsNonzero s (s.x .r0) ws t ∧
      deviceAt (s.x .r0 + BitVec.ofNat 16 ws.length) = some d ∧
      ReadsWord t (s.x .r0 + BitVec.ofNat 16 ws.length) 0#16 u ∧
      s.stringAt (s.x .r0) = .ok (charsOf ws, true, u)) ∨
    ∃ ws t, ws.length = 65536 ∧ ReadsNonzero s (s.x .r0) ws t ∧
      (CrtServes s 65536 65536 → ∃ u, exec i s = .next u ∧ StringPass s ws u) ∧
      (¬ CrtComes s → exec i s = .next s))

/-- A character is waiting or will be typed (spec/60_exceptions.md R166). -/
def KeyComes (s : State) : Prop := s.dev.kbReady = true ∨ ∃ es ∈ s.env, ∃ c, DeviceEvent.key c ∈ es

/-- No character will be typed. -/
def NoKeys (s : State) : Prop := ∀ es ∈ s.env, ∀ c, DeviceEvent.key c ∉ es

/-- The last character typed in a gap. -/
def lastKey : List DeviceEvent → Option Byte
  | [] => none
  | .key c :: es => some ((lastKey es).getD c)
  | .crtReady :: es => lastKey es

/-- The character that a call which waits for the keyboard gets (spec/60_exceptions.md R166, spec/43_trap.md R123).
Where one is waiting it is that one, or the last one typed in the gap before the call looks, which replaces it; where
none is, the last one of the first gap of the schedule in which one is typed. -/
def keyTaken (s : State) : Option Byte :=
  if s.dev.kbReady then some ((lastKey (s.env.headD [])).getD s.dev.kbChar) else s.env.findSome? lastKey

/-- The instruction lines with a label operand: mnemonic, operands, and the instruction a page offset makes of them
(spec/44_assembler.md R140, R142, R143). -/
def labelForms (d : Reg) (l : String) : List (String × List Operand × (BitVec 9 → Instr)) :=
  [("LEA", [.reg d, .label l], .lea d), ("LD", [.reg d, .label l], .ld d), ("ST", [.reg d, .label l], .st d),
   ("LDI", [.reg d, .label l], .ldi d), ("STI", [.reg d, .label l], .sti d), ("JMP", [.label l], .jmp),
   ("JSR", [.label l], .jsr)] ++
  [("BR", [.label l], .br true true true), ("BRn", [.label l], .br true false false),
   ("BRz", [.label l], .br false true false), ("BRp", [.label l], .br false false true),
   ("BRnz", [.label l], .br true true false), ("BRnp", [.label l], .br true false true),
   ("BRzp", [.label l], .br false true true), ("BRnzp", [.label l], .br true true true)]

/-- The instruction lines with a numeric operand of the field `imm5` (spec/44_assembler.md R144). -/
def imm5Forms (d b : Reg) (n : Int) : List (String × List Operand × (BitVec 5 → Instr)) :=
  [("ADD", [.reg d, .reg b, .num n], .addI d b), ("AND", [.reg d, .reg b, .num n], .andI d b)]

/-- The instruction lines with a numeric operand of the field `offset6` (R144). -/
def offset6Forms (d b : Reg) (n : Int) : List (String × List Operand × (BitVec 6 → Instr)) :=
  [("LDR", [.reg d, .reg b, .num n], .ldr d b), ("STR", [.reg d, .reg b, .num n], .str d b),
   ("JMPR", [.reg b, .num n], .jmpr b), ("JSRR", [.reg b, .num n], .jsrr b)]

/-- The seven instructions that set the condition codes (spec/10_state.md R16), with the register they write. -/
def codeSetter : Instr → Option Reg
  | .addR dr _ _ => some dr
  | .addI dr _ _ => some dr
  | .andR dr _ _ => some dr
  | .andI dr _ _ => some dr
  | .notR dr _ => some dr
  | .ld dr _ => some dr
  | .ldi dr _ => some dr
  | .ldr dr _ _ => some dr
  | .lea dr _ => some dr
  | .br _ _ _ _ => none
  | .st _ _ => none
  | .jmp _ => none
  | .jsr _ => none
  | .str _ _ _ => none
  | .rti => none
  | .sti _ _ => none
  | .jmpr _ _ => none
  | .jsrr _ _ => none
  | .ret => none
  | .trap _ => none

/-- The general registers an instruction may write (spec/10_state.md R12): DR, R7 for the linking ones, and RTI's
stack pointer. A service call of contract mode returns a value in R0 and may change R1 to R6 (spec/43_trap.md R129). -/
def regsWritten (p : Params) : Instr → List Reg
  | .rti => (p.rti.map (·.sp)).toList
  | .jsr _ => [.r7]
  | .jsrr _ _ => [.r7]
  | .trap _ =>
    match p.trapMode, p.osPreserves with
    | .hardware, _ => [.r7]
    | .contract, true => [.r0, .r7]
    | .contract, false => [.r0, .r1, .r2, .r3, .r4, .r5, .r6, .r7]
  | i => (codeSetter i).toList

/-- The instructions that store to memory, and the address they store to in a state (spec/41_data_movement.md R83,
R85, R87). The address of STI is the pointer its read of memory answers. -/
def storeAddr (s : State) : Instr → Option Word
  | .st _ po => some (s.pageAddr po)
  | .sti _ po => (s.memRead (s.pageAddr po)).toOption.map (·.1)
  | .str _ base off => some (s.baseAddr base off)
  | _ => none

/-- The value a storing instruction stores. -/
def storeValue (s : State) : Instr → Option Word
  | .st sr _ => some (s.x sr)
  | .sti sr _ => some (s.x sr)
  | .str sr _ _ => some (s.x sr)
  | _ => none

/-- TRAP run as a service call, whose effect on memory, registers and codes is the operating system's. -/
def isServiceCall (s : State) : Instr → Bool
  | .trap _ => s.params.trapMode == .contract
  | _ => false

/-- The bits `lo` to `lo + n - 1` of a word, as a number (spec/00_scope.md R7). -/
def bitsAt (w : Word) (lo n : Nat) : Nat := w.toNat / 2 ^ lo % 2 ^ n

/-- The word has an assigned opcode whose fixed bits differ from the encoding table: the table of
spec/30_encoding.md R54, row by row. -/
abbrev outsideTable (w : Word) : Prop :=
  ((bitsAt w 12 4 = 1 ∨ bitsAt w 12 4 = 5) ∧ bitsAt w 5 1 = 0 ∧ bitsAt w 3 2 ≠ 0) ∨
  (bitsAt w 12 4 = 9 ∧ bitsAt w 0 6 ≠ 63) ∨
  ((bitsAt w 12 4 = 4 ∨ bitsAt w 12 4 = 12) ∧ bitsAt w 9 2 ≠ 0) ∨
  ((bitsAt w 12 4 = 13 ∨ bitsAt w 12 4 = 8) ∧ bitsAt w 0 12 ≠ 0) ∨
  (bitsAt w 12 4 = 15 ∧ bitsAt w 8 4 ≠ 0)

/-- An outcome with its next state, if it has one, changed. -/
def mapNext (f : State → State) : Host.Outcome State Fault Refusal → Host.Outcome State Fault Refusal
  | .next t => .next (f t)
  | .fault r => .fault r
  | .refused r => .refused r

/-- The instructions after which the next one is not simply at `ia + 1` (spec/42_control.md, spec/43_trap.md). -/
def isControl : Instr → Bool
  | .br _ _ _ _ => true
  | .jmp _ => true
  | .jsr _ => true
  | .jmpr _ _ => true
  | .jsrr _ _ => true
  | .ret => true
  | .rti => true
  | .trap _ => true
  | _ => false

end Sys2Proof.Machine
end

