-- ==== Sys2Proof/Certificates/Slice0/Obligations.lean ====
section
/-! DEFINITION. The statements for the provers. Each docstring names the rule of spec/ it states. -/

open Sys2Proof Sys2Proof.Machine

/-! ### Encoding -/

/-- R57: decode after encode is the identity on every instruction, for both values of `strict_decode`. -/
def Obligations.DecodeAfterEncodeIsIdentity : Prop :=
  ∀ (strict : Bool) (i : Instr), decode strict (encode i) = .ok i

/-- R57: encode after decode is the identity on every word the strict decoder accepts: no bit of it is dropped. -/
def Obligations.EncodeAfterDecodeIsIdentity : Prop :=
  ∀ (w : Word) (i : Instr), decode true w = .ok i → encode i = w

/-- R53: the strict decoder accepts exactly the words some row of the opcode map covers; exactly one row covers such a
word, and it is the row of the instruction decoded. -/
def Obligations.DecoderAgreesWithOpcodeMap : Prop :=
  (∀ w : Word, (∃ i, decode true w = .ok i) ↔ ∃ r ∈ opcodeTable, r.covers w = true) ∧
  (∀ (w : Word) (i : Instr), decode true w = .ok i →
    i.row.covers w = true ∧ ∀ r ∈ opcodeTable, r.covers w = true → r = i.row)

/-- R54: the strict decoder rejects exactly the words whose fixed bits differ from the table; with `strict_decode`
false every word decodes, to the instruction its opcode, its bit [5] (0001, 0101) and its bit [11] (0100, 1100)
select, with the variable bits of the word; and the two agree on the words of the table. -/
def Obligations.WordsOutsideTheTable : Prop :=
  (∀ w : Word, outsideTable w ↔ ∃ why, decode true w = .error why) ∧
  (∀ w : Word, ∃ i, decode false w = .ok i ∧ fieldOpcode (encode i) = fieldOpcode w ∧
    (encode i ^^^ w) &&& ~~~ i.row.mask = 0#16 ∧
    (fieldOpcode w = 1#4 ∨ fieldOpcode w = 5#4 → (encode i).getLsbD 5 = w.getLsbD 5) ∧
    (fieldOpcode w = 4#4 ∨ fieldOpcode w = 12#4 → (encode i).getLsbD 11 = w.getLsbD 11)) ∧
  (∀ (w : Word) (i : Instr), decode true w = .ok i → decode false w = .ok i)

/-- Sanity: words the spec writes out for its examples decode to the instructions they stand for (95 section 1). -/
def Obligations.ExampleWordsDecode : Prop :=
  decode true 0x14C4#16 = .ok (.addR .r2 .r3 .r4) ∧ decode true 0x54E7#16 = .ok (.andI .r2 .r3 7) ∧
  decode true 0x98BF#16 = .ok (.notR .r4 .r2) ∧ decode true 0x6BFD#16 = .ok (.ldr .r5 .r7 61) ∧
  decode true 0xBBFD#16 = .ok (.sti .r5 0x1FD) ∧ decode true 0x07FD#16 = .ok (.br false true true 0x1FD) ∧
  decode true 0xC88A#16 = .ok (.jsrr .r2 10) ∧ decode true 0xF023#16 = .ok (.trap 0x23)

/-! ### The step -/

/-- R8: where the clock is enabled, the PC names ordinary memory and the word there decodes to an instruction, a step
is the meaning of that instruction in the state the devices leave after the gap before the fetch; that gap changes no
register, no PC, no code, no memory and no launch parameter. -/
def Obligations.StepRunsTheDecodedInstruction : Prop :=
  ∀ (s : State) (i : Instr), s.dev.clockEnable = true → s.ordinary s.pc = true →
    decode s.params.strictDecode (s.word s.pc) = .ok i →
    step s = exec i s.gap ∧ s.gap.regs = s.regs ∧ s.gap.pc = s.pc ∧ s.gap.cc = s.cc ∧ s.gap.mem = s.mem ∧
      s.gap.params = s.params

/-- R54, D5: under `strict_decode` a fetched word outside the table is refused, by the name of the row it violates.
The refusal is the default of a launch parameter (log 12). -/
def Obligations.StepRefusesWordOutsideTheTable : Prop :=
  ∀ s : State, s.dev.clockEnable = true → s.ordinary s.pc = true → s.params.strictDecode = true →
    outsideTable (s.word s.pc) →
    ∃ why, fixedBitsViolated (s.word s.pc) = some why ∧ step s = .refused (.noEncoding why)

/-- R43, D22: an instruction fetch from one of the five device addresses is refused: the spec's own decision, read so
in log 25. -/
def Obligations.FetchFromDeviceRefused : Prop :=
  ∀ s : State, s.dev.clockEnable = true →
    s.pc = 0xF3FC#16 ∨ s.pc = 0xF3FF#16 ∨ s.pc = 0xF400#16 ∨ s.pc = 0xF401#16 ∨ s.pc = 0xF402#16 →
    ∃ d, deviceAt s.pc = some d ∧ step s = .refused (.fetchFromDevice d)

/-- R168, R160: the only fault of a step is that the clock enable bit is 0, and there it always faults: a stopped
machine has no step, and no instruction raises a fault. That having no step is written as a fault is log 24. -/
def Obligations.OnlyAStoppedMachineFaults : Prop :=
  (∀ (s : State) (f : Fault), step s = .fault f ↔ s.dev.clockEnable = false) ∧
  (∀ (i : Instr) (s : State) (f : Fault), exec i s ≠ .fault f)

/-- R42: after a store to ordinary memory by ST, STI or STR, an instruction fetch at that address answers the word
stored. -/
def Obligations.StoreIsSeenByFetch : Prop :=
  ∀ (i : Instr) (s t : State) (a v : Word), s.MemoryCanonical → storeAddr s i = some a → storeValue s i = some v →
    s.ordinary a = true → exec i s = .next t → (t.jumpTo a).fetch = .ok v

/-! ### Reset -/

/-- R26: what the spec gives of the launch state, at State.reset: the clock enabled, no key pending (`kb_clean`; log
6), nothing displayed, MCR not written, exactly one code set; and the nine launch parameters that are fields of
Params, at their defaults of 92 section 1, where `rti_params` is absent and `jsrr_r7` is `refuse` (logs 10, 11). -/
def Obligations.ResetIsALaunchState : Prop :=
  State.reset.Launched ∧ State.reset.params.strictDecode = true ∧ State.reset.params.pageBase = .ia ∧
    State.reset.params.trapMode = .hardware ∧ State.reset.params.osPreserves = false ∧
    State.reset.params.kbdClearOnRead = .draw ∧ State.reset.params.crtEventuallyReady = false ∧
    State.reset.params.rti = none ∧ State.reset.params.jsrrR7 = none ∧
    (∀ a : Word, State.reset.isRam a = true)

/-- The model's own choices at reset, where the spec gives no value (logs 2 to 7): R0 to R7 and every word of memory
x0000, the PC x3000, N, Z, P = 0, 1, 0, the CRT not ready. -/
def Obligations.ResetChosenValues : Prop :=
  (∀ r, State.reset.x r = 0#16) ∧ (∀ a : Word, State.reset.word a = 0#16) ∧ State.reset.pc = 0x3000#16 ∧
    State.reset.cc = ⟨false, true, false⟩ ∧ State.reset.dev.crtReady = false ∧ State.reset.env = []

/-- The invariant of MemoryStaysCanonical holds at reset. The canonical list and the empty memory at reset are the
model's own choices (logs 1 and 2). -/
def Obligations.ResetMemoryCanonical : Prop := State.reset.MemoryCanonical

/-! ### Operate instructions -/

/-- R14: `setcc(v)` sets N for a negative, Z for a zero and P for a positive value, and exactly one of them. -/
def Obligations.SetccDescribesTheValue : Prop :=
  ∀ v : Word, CodesOf v (CC.ofWord v) ∧ (CC.ofWord v).oneHot = true

/-- R70: ADD, register form. -/
def Obligations.AddRegisterResult : Prop :=
  ∀ (strict : Bool) (dr sr1 sr2 : Reg) (s : State),
    decode strict (0b0001#4 ++ dr.toBits ++ sr1.toBits ++ 0b000#3 ++ sr2.toBits) = .ok (.addR dr sr1 sr2) ∧
    ∃ t v, exec (.addR dr sr1 sr2) s = .next t ∧ v.toNat = ((s.x sr1).toNat + (s.x sr2).toNat) % 65536 ∧
      ResultIs s s t dr v

/-- R71: ADD, immediate form; the immediate is imm5 read as a signed number. -/
def Obligations.AddImmediateResult : Prop :=
  ∀ (strict : Bool) (dr sr1 : Reg) (imm5 : BitVec 5) (s : State),
    decode strict (0b0001#4 ++ dr.toBits ++ sr1.toBits ++ 0b1#1 ++ imm5) = .ok (.addI dr sr1 imm5) ∧
    ∃ t v, exec (.addI dr sr1 imm5) s = .next t ∧ v = BitVec.ofInt 16 ((s.x sr1).toInt + imm5.toInt) ∧
      ResultIs s s t dr v

/-- R72: AND, register form: a result bit is 1 exactly when both operand bits are. -/
def Obligations.AndRegisterResult : Prop :=
  ∀ (strict : Bool) (dr sr1 sr2 : Reg) (s : State),
    decode strict (0b0101#4 ++ dr.toBits ++ sr1.toBits ++ 0b000#3 ++ sr2.toBits) = .ok (.andR dr sr1 sr2) ∧
    ∃ t v, exec (.andR dr sr1 sr2) s = .next t ∧
      (∀ k, v.getLsbD k = ((s.x sr1).getLsbD k && (s.x sr2).getLsbD k)) ∧ ResultIs s s t dr v

/-- R73: AND, immediate form: bit [4] of imm5 is copied into bits [15:5] of the mask. -/
def Obligations.AndImmediateResult : Prop :=
  ∀ (strict : Bool) (dr sr1 : Reg) (imm5 : BitVec 5) (s : State),
    decode strict (0b0101#4 ++ dr.toBits ++ sr1.toBits ++ 0b1#1 ++ imm5) = .ok (.andI dr sr1 imm5) ∧
    ∃ t v, exec (.andI dr sr1 imm5) s = .next t ∧
      (∀ k, v.getLsbD k = ((s.x sr1).getLsbD k && if k < 5 then imm5.getLsbD k else imm5.getLsbD 4)) ∧
      ResultIs s s t dr v

/-- R74: NOT: each of the 16 bits inverted, equivalently xFFFF minus the operand. -/
def Obligations.NotResult : Prop :=
  ∀ (strict : Bool) (dr sr : Reg) (s : State),
    decode strict (0b1001#4 ++ dr.toBits ++ sr.toBits ++ 0b111111#6) = .ok (.notR dr sr) ∧
    ∃ t v, exec (.notR dr sr) s = .next t ∧ v.toNat = 65535 - (s.x sr).toNat ∧ ResultIs s s t dr v

/-! ### Data movement instructions -/

/-- R88: the page address is the page of the instruction's own address with the offset in the low 9 bits; and the
other reading, `page_base = ia_plus_1` (R32). -/
def Obligations.PageAddressIsOnThePage : Prop :=
  ∀ (s : State) (po : BitVec 9), IsPageAddress s po (s.pageAddr po)

/-- R89: the base+offset address is the base register plus the offset taken as a positive value, modulo 2^16. -/
def Obligations.BaseOffsetAddressIsTheSum : Prop :=
  ∀ (s : State) (base : Reg) (off : BitVec 6),
    IsBaseAddress s base off (s.baseAddr base off)

/-- R81: LEA loads the page address itself. -/
def Obligations.LeaResult : Prop :=
  ∀ (strict : Bool) (dr : Reg) (po : BitVec 9) (s : State),
    decode strict (0b1110#4 ++ dr.toBits ++ po) = .ok (.lea dr po) ∧
    ∃ t v, exec (.lea dr po) s = .next t ∧ IsPageAddress s po v ∧ ResultIs s s t dr v

/-- R82: LD loads the word at the page address: of ordinary memory, or of a device register; it is refused only where
there is no memory. It rests on one gap before each access (logs 16, 34), what a device register answers (logs 19, 22,
26) and the refusal where there is no memory (R35; log 14). -/
def Obligations.LdResult : Prop :=
  ∀ (strict : Bool) (dr : Reg) (po : BitVec 9) (s : State),
    decode strict (0b0010#4 ++ dr.toBits ++ po) = .ok (.ld dr po) ∧
    IsPageAddress s po (s.pageAddr po) ∧
    LoadsFrom (.ld dr po) s s (s.pageAddr po) dr

/-- R86: LDR loads the word at base register plus offset. It rests on one gap before each access (logs 16, 34), what a
device register answers (logs 19, 22, 26) and the refusal where there is no memory (R35; log 14). -/
def Obligations.LdrResult : Prop :=
  ∀ (strict : Bool) (dr base : Reg) (off : BitVec 6) (s : State),
    decode strict (0b0110#4 ++ dr.toBits ++ base.toBits ++ off) = .ok (.ldr dr base off) ∧
    IsBaseAddress s base off (s.baseAddr base off) ∧
    LoadsFrom (.ldr dr base off) s s (s.baseAddr base off) dr

/-- R84: LDI reads the pointer at the page address, then loads the word the pointer names. It rests on one gap before
each access (logs 16, 34), what a device register answers (logs 19, 22, 26) and the refusal where there is no memory
(R35; log 14). -/
def Obligations.LdiResult : Prop :=
  ∀ (strict : Bool) (dr : Reg) (po : BitVec 9) (s : State),
    decode strict (0b1010#4 ++ dr.toBits ++ po) = .ok (.ldi dr po) ∧
    IsPageAddress s po (s.pageAddr po) ∧
    (s.ordinary (s.pageAddr po) = true → LoadsFrom (.ldi dr po) s s.gap (s.word (s.pageAddr po)) dr) ∧
    (∀ d, deviceAt (s.pageAddr po) = some d →
      LoadsFrom (.ldi dr po) s (s.gap.readDevice d).2 (s.gap.readDevice d).1 dr) ∧
    (deviceAt (s.pageAddr po) = none → s.isRam (s.pageAddr po) = false →
      exec (.ldi dr po) s = .refused (.readUnpopulated (s.pageAddr po)))

/-- R83: ST stores a register at the page address. It rests on one gap before each access (logs 16, 34), the free
ready bit after a character (log 20), the refused device writes (log 21) and the refusal where there is no memory
(R35; log 14). -/
def Obligations.StResult : Prop :=
  ∀ (strict : Bool) (sr : Reg) (po : BitVec 9) (s : State),
    decode strict (0b0011#4 ++ sr.toBits ++ po) = .ok (.st sr po) ∧
    IsPageAddress s po (s.pageAddr po) ∧
    StoresTo (.st sr po) s s (s.pageAddr po) (s.x sr)

/-- R87: STR stores a register at base register plus offset. It rests on one gap before each access (logs 16, 34), the
free ready bit after a character (log 20), the refused device writes (log 21) and the refusal where there is no memory
(R35; log 14). -/
def Obligations.StrResult : Prop :=
  ∀ (strict : Bool) (sr base : Reg) (off : BitVec 6) (s : State),
    decode strict (0b0111#4 ++ sr.toBits ++ base.toBits ++ off) = .ok (.str sr base off) ∧
    IsBaseAddress s base off (s.baseAddr base off) ∧
    StoresTo (.str sr base off) s s (s.baseAddr base off) (s.x sr)

/-- R85: STI reads the pointer at the page address, then stores a register where the pointer names. It rests on one
gap before each access (logs 16, 34), the free ready bit after a character (log 20), the refused device writes (log
21) and the refusal where there is no memory (R35; log 14); the pointer read from a device register on logs 19, 22,
26. -/
def Obligations.StiResult : Prop :=
  ∀ (strict : Bool) (sr : Reg) (po : BitVec 9) (s : State),
    decode strict (0b1011#4 ++ sr.toBits ++ po) = .ok (.sti sr po) ∧
    IsPageAddress s po (s.pageAddr po) ∧
    (s.ordinary (s.pageAddr po) = true → StoresTo (.sti sr po) s s.gap (s.word (s.pageAddr po)) (s.x sr)) ∧
    (∀ d, deviceAt (s.pageAddr po) = some d →
      StoresTo (.sti sr po) s (s.gap.readDevice d).2 (s.gap.readDevice d).1 (s.x sr)) ∧
    (deviceAt (s.pageAddr po) = none → s.isRam (s.pageAddr po) = false →
      exec (.sti sr po) s = .refused (.readUnpopulated (s.pageAddr po)))

/-! ### The device registers -/

/-- R18: CRTSR reads as the CRT's ready bit over 15 free bits, and a write is refused (log 21). -/
def Obligations.CrtsrAccess : Prop :=
  ∀ (s : State) (v : Word),
    (∃ x : BitVec 15, s.memRead 0xF3FC#16 = .ok (BitVec.ofBool s.gap.dev.crtReady ++ x, s.gap.afterDraw)) ∧
    s.memWrite 0xF3FC#16 v = .error (.writeReadOnly .crtsr)

/-- R19, R167: a write to CRTDR while the CRT is ready displays the low byte and leaves the ready bit free; while it
is not ready the write is refused; a read answers a free value. -/
def Obligations.CrtdrAccess : Prop :=
  ∀ (s : State) (v : Word),
    (s.gap.dev.crtReady = true → ∃ r : Bool, s.memWrite 0xF3FF#16 v = .ok { s.gap with
      draws := s.gap.draws + 1
      dev := { s.gap.dev with crtOut := s.gap.dev.crtOut ++ [v.extractLsb' 0 8], crtReady := r } }) ∧
    (s.gap.dev.crtReady = false → s.memWrite 0xF3FF#16 v = .error .crtNotReady) ∧
    (∃ x : Word, s.memRead 0xF3FF#16 = .ok (x, s.gap.afterDraw))

/-- R20: KBSR reads as the keyboard's ready bit over 15 free bits, and a write is refused (log 21). -/
def Obligations.KbsrAccess : Prop :=
  ∀ (s : State) (v : Word),
    (∃ x : BitVec 15, s.memRead 0xF400#16 = .ok (BitVec.ofBool s.gap.dev.kbReady ++ x, s.gap.afterDraw)) ∧
    s.memWrite 0xF400#16 v = .error (.writeReadOnly .kbsr)

/-- R21, R166: KBDR reads as 8 free bits over the last character typed; after the read the ready bit is 0, unchanged,
or one of the two freely, by `kbd_clear_on_read`; the read changes nothing else; a write is refused (log 21). The
ready bit after a read is the launch parameter of log 19. -/
def Obligations.KbdrAccess : Prop :=
  ∀ (s : State) (v : Word),
    (∃ (x : Byte) (r : Bool), s.memRead 0xF401#16 = .ok (x ++ s.gap.dev.kbChar, { s.gap with
        draws := s.gap.draws + 2
        dev := { s.gap.dev with kbReady := r } }) ∧
      (r = true → s.gap.dev.kbReady = true) ∧
      (s.params.kbdClearOnRead = .always → r = false) ∧
      (s.params.kbdClearOnRead = .never → r = s.gap.dev.kbReady)) ∧
    s.memWrite 0xF401#16 v = .error (.writeReadOnly .kbdr)

/-- R22: a write of MCR sets the clock enable from bit [15] and keeps the other bits; a read answers the clock enable
over the bits kept, or over free bits before the first write. That MCR can be read is log 22: R22 marks it derived. -/
def Obligations.McrAccess : Prop :=
  ∀ (s : State) (v : Word),
    s.memWrite 0xF402#16 v = .ok { s.gap with
      dev := { s.gap.dev with clockEnable := v.getLsbD 15, mcrLow := v.extractLsb' 0 15, mcrWritten := true } } ∧
    (s.gap.dev.mcrWritten = true →
      s.memRead 0xF402#16 = .ok (BitVec.ofBool s.gap.dev.clockEnable ++ s.gap.dev.mcrLow, s.gap)) ∧
    (s.gap.dev.mcrWritten = false → ∃ x : BitVec 15,
      s.memRead 0xF402#16 = .ok (BitVec.ofBool s.gap.dev.clockEnable ++ x, s.gap.afterDraw))

/-- R166: the last character typed in a gap is the one KBDR then holds, and the ready bit is 1. -/
def Obligations.LastKeyTypedIsHeld : Prop :=
  ∀ (s : State) (before after : List DeviceEvent) (c : Byte) (rest : List (List DeviceEvent)),
    s.env = (before ++ .key c :: after) :: rest → (∀ e ∈ after, ∀ d, e ≠ .key d) →
    s.gap.dev.kbChar = c ∧ s.gap.dev.kbReady = true ∧ s.gap.env = rest

/-- R39, R172: between two accesses the devices change only their own registers: no general register, no PC, no code,
no memory, no clock enable, no output; and a CRT event leaves the keyboard alone, a key the CRT. -/
def Obligations.DevicesChangeOnlyTheirRegisters : Prop :=
  (∀ s : State, s.gap.regs = s.regs ∧ s.gap.pc = s.pc ∧ s.gap.cc = s.cc ∧ s.gap.mem = s.mem ∧
    s.gap.params = s.params ∧ s.gap.draws = s.draws ∧ s.gap.dev.clockEnable = s.dev.clockEnable ∧
    s.gap.dev.mcrLow = s.dev.mcrLow ∧ s.gap.dev.mcrWritten = s.dev.mcrWritten ∧
    s.gap.dev.crtOut = s.dev.crtOut) ∧
  (∀ (s : State) (es : List DeviceEvent) (rest : List (List DeviceEvent)), s.env = es :: rest →
    (DeviceEvent.crtReady ∉ es → s.gap.dev.crtReady = s.dev.crtReady) ∧
    ((∀ c, DeviceEvent.key c ∉ es) → s.gap.dev.kbReady = s.dev.kbReady ∧ s.gap.dev.kbChar = s.dev.kbChar))

/-! ### Control instructions -/

/-- R100: BR goes to the page address exactly when a selected code is set, and otherwise to the next instruction. -/
def Obligations.BrResult : Prop :=
  ∀ (strict n z p : Bool) (po : BitVec 9) (s : State),
    decode strict (0b0000#4 ++ BitVec.ofBool n ++ BitVec.ofBool z ++ BitVec.ofBool p ++ po) =
      .ok (.br n z p po) ∧
    ∃ t v, exec (.br n z p po) s = .next t ∧ IsPageAddress s po v ∧
      ((n = true ∧ s.cc.n = true) ∨ (z = true ∧ s.cc.z = true) ∨ (p = true ∧ s.cc.p = true) →
        JumpsTo s t v) ∧
      (¬((n = true ∧ s.cc.n = true) ∨ (z = true ∧ s.cc.z = true) ∨ (p = true ∧ s.cc.p = true)) →
        JumpsTo s t (s.pc + 1#16))

/-- R101: JMP goes to the page address. -/
def Obligations.JmpResult : Prop :=
  ∀ (strict : Bool) (po : BitVec 9) (s : State),
    decode strict (0b0100000#7 ++ po) = .ok (.jmp po) ∧
    ∃ t v, exec (.jmp po) s = .next t ∧ IsPageAddress s po v ∧ JumpsTo s t v

/-- R102: JSR saves the return address in R7, goes to the page address and leaves the codes. -/
def Obligations.JsrResult : Prop :=
  ∀ (strict : Bool) (po : BitVec 9) (s : State),
    decode strict (0b0100100#7 ++ po) = .ok (.jsr po) ∧
    ∃ t v, exec (.jsr po) s = .next t ∧ IsPageAddress s po v ∧ LinksTo s s t v

/-- R103: JMPR goes to base register plus offset, on any page. -/
def Obligations.JmprResult : Prop :=
  ∀ (strict : Bool) (base : Reg) (off : BitVec 6) (s : State),
    decode strict (0b1100000#7 ++ base.toBits ++ off) = .ok (.jmpr base off) ∧
    ∃ t v, exec (.jmpr base off) s = .next t ∧ IsBaseAddress s base off v ∧ JumpsTo s t v

/-- R104: JSRR saves the return address in R7 and goes to base register plus offset. Where the base is R7 itself,
`jsrr_r7` says whether the target is computed from the old or the new R7, or the instruction is refused, the default
(log 11). -/
def Obligations.JsrrResult : Prop :=
  ∀ (strict : Bool) (base : Reg) (off : BitVec 6) (s : State),
    decode strict (0b1100100#7 ++ base.toBits ++ off) = .ok (.jsrr base off) ∧
    (base ≠ .r7 ∨ s.params.jsrrR7 ≠ none → ∃ t v, exec (.jsrr base off) s = .next t ∧ LinksTo s s t v ∧
      (base ≠ .r7 ∨ s.params.jsrrR7 = some .old → IsBaseAddress s base off v) ∧
      (base = .r7 ∧ s.params.jsrrR7 = some .new → v.toNat = (s.pc.toNat + 1 + off.toNat) % 65536)) ∧
    (base = .r7 → s.params.jsrrR7 = none → exec (.jsrr base off) s = .refused .jsrrThroughR7)

/-- R105: RET copies R7 to the PC and changes nothing else. -/
def Obligations.RetResult : Prop :=
  ∀ (strict : Bool) (s : State),
    decode strict 0xD000#16 = .ok .ret ∧ ∃ t, exec .ret s = .next t ∧ JumpsTo s t (s.x .r7)

/-- R106: RTI pops two words through the stack pointer register: each pop reads the word at the pointer, of ordinary
memory or of a device register, before or after the pointer has moved by +1 or -1; one word is the PC, the other gives
N, Z and P, by `rti_params` (log 33). Without `rti_params`, the default, see RtiRefusal (log 10). -/
def Obligations.RtiResult : Prop :=
  ∀ (strict : Bool) (s : State),
    decode strict 0x8000#16 = .ok .rti ∧ ∀ r, s.params.rti = some r →
    (let d : Word := if r.dir = .plus1 then 1#16 else 0xFFFF#16
     let a1 := if r.moveFirst then s.x r.sp + d else s.x r.sp
     ∀ w1 u1 w2 u2, ReadsWord s a1 w1 u1 → ReadsWord u1 (a1 + d) w2 u2 →
       let pcw := if r.pcFirst then w1 else w2
       let ccw := if r.pcFirst then w2 else w1
       ∃ t, exec .rti s = .next t ∧
         t.pc = pcw ∧ t.cc.n = ccw.getLsbD r.nBit ∧ t.cc.z = ccw.getLsbD r.zBit ∧ t.cc.p = ccw.getLsbD r.pBit ∧
         t.x r.sp = s.x r.sp + d + d ∧ KeepsRegsBut [r.sp] s t ∧ KeepsWords s t ∧ KeepsDevices u2 t)

/-- R106, R35, D11: RTI is refused where the launch gives no stack convention (log 10). Where it gives one, RTI stops
only on an access its stack has no memory for: the first word popped, or the second, whatever the first was read from.
-/
def Obligations.RtiRefusal : Prop :=
  ∀ s : State, (s.params.rti = none → exec .rti s = .refused .rtiNoConvention) ∧ ∀ r, s.params.rti = some r →
    let d : Word := if r.dir = .plus1 then 1#16 else 0xFFFF#16
    let a1 := if r.moveFirst then s.x r.sp + d else s.x r.sp
    (deviceAt a1 = none ∧ s.isRam a1 = false → exec .rti s = .refused (.readUnpopulated a1)) ∧
    (∀ w1 u1, ReadsWord s a1 w1 u1 → deviceAt (a1 + d) = none → s.isRam (a1 + d) = false →
      exec .rti s = .refused (.readUnpopulated (a1 + d))) ∧
    (∀ e, exec .rti s = .refused e → e = .readUnpopulated a1 ∨ e = .readUnpopulated (a1 + d))

/-! ### TRAP -/

/-- R120, R163: in hardware mode TRAP saves the return address in R7 and goes to the address its vector word holds; it
changes no code, no other register and no memory; every vector is legal. The frame is over one gap of the schedule
(log 16), and a vector word without memory is refused (R35; log 14). -/
def Obligations.TrapResult : Prop :=
  ∀ (strict : Bool) (vec : BitVec 8) (s : State),
    decode strict (0b11110000#8 ++ vec) = .ok (.trap vec) ∧ (vectorAddr vec).toNat = vec.toNat ∧
    (s.params.trapMode = .hardware → s.isRam (vectorAddr vec) = true →
      ∃ t, exec (.trap vec) s = .next t ∧ LinksTo s s.gap t (s.word (vectorAddr vec))) ∧
    (s.params.trapMode = .hardware → s.isRam (vectorAddr vec) = false →
      exec (.trap vec) s = .refused (.readUnpopulated (vectorAddr vec)))

/-- R123, R129: GETC in contract mode: where a character is waiting or will be typed it returns with the character in
R0, its high eight bits 0, the output unchanged, the character consumed (log 32). Which character (`keyTaken`): the
one waiting, or the last one typed in the gap before the call looks, which replaces it; else the last one of the first
gap of the schedule that holds one. Where none will come it waits: the same state (log 27). -/
def Obligations.GetcContract : Prop :=
  ∀ s : State, s.params.trapMode = .contract →
    (KeyComes s → ∃ t c, exec (.trap 0x20#8) s = .next t ∧ keyTaken s = some c ∧ (NoKeys s → c = s.dev.kbChar) ∧
      CallReturned s t ∧ t.x .r0 = c.setWidth 16 ∧ t.dev.crtOut = s.dev.crtOut ∧ t.dev.kbReady = false) ∧
    (¬ KeyComes s → exec (.trap 0x20#8) s = .next s)

/-- R124, R129: OUT in contract mode: where the CRT is or becomes ready the low byte of R0 is appended to the output,
R0 is unchanged (log 31) and the call returns; where it never is, the call waits: the same state (log 27). -/
def Obligations.OutContract : Prop :=
  ∀ s : State, s.params.trapMode = .contract →
    (CrtComes s → ∃ t, exec (.trap 0x21#8) s = .next t ∧ CallReturned s t ∧ t.x .r0 = s.x .r0 ∧
      t.dev.crtOut = s.dev.crtOut ++ [(s.x .r0).extractLsb' 0 8]) ∧
    (¬ CrtComes s → exec (.trap 0x21#8) s = .next s)

/-- R125, R129: PUTS in contract mode, where R0 points to a string in ordinary memory: its characters are appended in
order, the ending word is not displayed, R0 is unchanged (log 31) and the call returns, where the CRT becomes ready
often enough; where it never does and there is a character to display, the call waits: the same state (log 27). Where
the string has no memory for a word it is refused, and where it has no end it runs on, pass after pass (`StringStops`;
logs 27, 28). -/
def Obligations.PutsContract : Prop :=
  ∀ s : State, s.params.trapMode = .contract →
    (∀ ws, HoldsString s (s.x .r0) ws → ws.length < 65536 →
      (CrtServes s (ws.length + 1) ws.length →
        ∃ t, exec (.trap 0x22#8) s = .next t ∧ CallReturned s t ∧ t.x .r0 = s.x .r0 ∧
          t.dev.crtOut = s.dev.crtOut ++ charsOf ws) ∧
      (ws ≠ [] → ¬ CrtComes s → exec (.trap 0x22#8) s = .next s)) ∧
    StringStops (.trap 0x22#8) s

/-- R126, R129: IN in contract mode, where R0 points to a prompt in ordinary memory: the prompt, then the echo of the
character read, are appended to the output, and the character is in R0, its high eight bits 0, where the CRT becomes
ready often enough and a character is waiting or will be typed. The character is the one the keyboard gives once the
prompt is displayed (`keyTaken` of that state): the one waiting, where none is typed. Where no character will come, or
the CRT never becomes ready, the call waits: the same state (log 27). Where the prompt has no memory for a word it is
refused, and where it has no end it runs on, pass after pass (`StringStops`; logs 27, 28). -/
def Obligations.InContract : Prop :=
  ∀ s : State, s.params.trapMode = .contract →
    (∀ ws, HoldsString s (s.x .r0) ws → ws.length < 65536 →
      (CrtServes s (ws.length + 1) (ws.length + 1) → KeyComes s →
        ∃ t u c, exec (.trap 0x23#8) s = .next t ∧ s.emitStringR0 = .ok u ∧ keyTaken u = some c ∧
          (NoKeys s → c = s.dev.kbChar) ∧ CallReturned s t ∧ t.x .r0 = c.setWidth 16 ∧
          t.dev.crtOut = s.dev.crtOut ++ charsOf ws ++ [c]) ∧
      (¬ KeyComes s ∨ ¬ CrtComes s → exec (.trap 0x23#8) s = .next s)) ∧
    StringStops (.trap 0x23#8) s

/-- R127, R129: HALT in contract mode appends some message and stops the machine: the next step has no effect. R7
holds the return address; R0 is unchanged (log 31). The message is a free value (log 30), and that the next step has
no effect is written as the fault of log 24. -/
def Obligations.HaltContract : Prop :=
  ∀ s : State, s.params.trapMode = .contract →
    ∃ t msg, exec (.trap 0x25#8) s = .next t ∧ t.dev.crtOut = s.dev.crtOut ++ msg ∧
      t.dev.clockEnable = false ∧ step t = .fault .clockStopped ∧ t.x .r7 = s.nextPc ∧ t.x .r0 = s.x .r0 ∧
      (s.params.osPreserves = true → KeepsRegsBut [.r7] s t ∧ KeepsWords s t)

/-- R128: in contract mode a vector with no defined service is refused. -/
def Obligations.OtherVectorsHaveNoService : Prop :=
  ∀ (vec : BitVec 8) (s : State), s.params.trapMode = .contract →
    vec.toNat ∉ [0x20, 0x21, 0x22, 0x23, 0x25] → exec (.trap vec) s = .refused (.trapNoService vec)

/-! ### Rules of the whole machine -/

/-- Every step keeps memory in its canonical form, the model's own writing of the memory of R24 and R30 (logs 1, 2):
addresses below 2^16, strictly rising, no cell that says no more than an unlisted address. -/
def Obligations.MemoryStaysCanonical : Prop :=
  ∀ s t : State, s.MemoryCanonical → step s = .next t → t.MemoryCanonical

/-- R17: exactly one of N, Z, P is 1 after every `setcc`, and every instruction but RTI keeps that. -/
def Obligations.CodesStayOneHot : Prop :=
  ∀ (i : Instr) (s t : State), i ≠ .rti → s.OneHot → exec i s = .next t → t.OneHot

/-- R16: the seven instructions leave the codes of the value in their destination; every other instruction but RTI and
a service call of contract mode leaves the codes as they were. -/
def Obligations.OnlyTheSevenSetCodes : Prop :=
  ∀ (i : Instr) (s t : State), exec i s = .next t →
    (∀ dr, codeSetter i = some dr → CodesOf (t.x dr) t.cc) ∧
    (codeSetter i = none → i ≠ .rti → isServiceCall s i = false → t.cc = s.cc)

/-- R16: no instruction but BR reads the condition codes: with other codes it does the same, the codes apart. -/
def Obligations.OnlyBranchReadsCodes : Prop :=
  ∀ (i : Instr) (s : State) (c : CC), (∀ n z p po, i ≠ .br n z p po) →
    ∃ c' : CC, exec i { s with cc := c } = mapNext (fun t => { t with cc := c' }) (exec i s)

/-- R12: an instruction writes no general register but those the rule names for it, RTI's pointer being the one of
`rti_params`, if there is one (R106; logs 10, 33). -/
def Obligations.OnlyNamedRegistersWritten : Prop :=
  ∀ (i : Instr) (s t : State), exec i s = .next t → KeepsRegsBut (regsWritten s.params i) s t

/-- R41, R80: an instruction changes at most one word of memory, the one ST, STI or STR stores to; a service call of
contract mode is the operating system's. -/
def Obligations.OnlyTheStoredWordChanges : Prop :=
  ∀ (i : Instr) (s t : State), s.MemoryCanonical → exec i s = .next t → isServiceCall s i = false →
    (storeAddr s i = none → KeepsWords s t) ∧ (∀ a, storeAddr s i = some a → KeepsWordsBut a s t)

/-- R167: a step never takes back a character displayed: the output only grows. -/
def Obligations.OutputOnlyGrows : Prop :=
  ∀ s t : State, step s = .next t → s.dev.crtOut <+: t.dev.crtOut

/-- R168: the clock enable bit is cleared only by a store of a word with bit [15] = 0 to xF402, or by HALT run as a
contract. -/
def Obligations.OnlyMcrStoreStopsTheMachine : Prop :=
  ∀ (i : Instr) (s t : State), s.dev.clockEnable = true → exec i s = .next t → t.dev.clockEnable = false →
    (storeAddr s i = some 0xF402#16 ∧ ∃ v, storeValue s i = some v ∧ v.getLsbD 15 = false) ∨
    (isServiceCall s i = true ∧ i = .trap 0x25#8)

/-! ### The assembler -/

/-- R142, R143: an instruction line at `ia` with a label operand, of each of the mnemonics that take one: a label on
the page becomes the low 9 bits of its address, so that the instruction's page address is the label (where the page
bits are those of `ia`; log 13); a label on another page is an error (D24). That a label of no line is an error too is
the model's own choice (log 37). -/
def Obligations.LabelOnThePageIsReached : Prop :=
  ∀ (syms : Symbols) (ia : Word) (d : Reg) (l name : String) (ops : List Operand) (form : BitVec 9 → Instr),
    (name, ops, form) ∈ labelForms d l →
    (∀ a, syms.lookup l = some a →
      (a.toNat / 512 = ia.toNat / 512 → ∃ po, assembleInstr syms ia name ops = .ok (form po) ∧
        ∀ s : State, s.pc = ia → s.params.pageBase = .ia → s.pageAddr po = a) ∧
      (a.toNat / 512 ≠ ia.toNat / 512 → assembleInstr syms ia name ops = .error .offPage)) ∧
    (syms.lookup l = none → assembleInstr syms ia name ops = .error .undefinedLabel)

/-- R144: imm5 (ADD, AND) takes -16 to 15, offset6 (LDR, STR, JMPR, JSRR) takes 0 to 63, trapvect8 takes 0 to 255,
each encoded as that number; any other number is an error. -/
def Obligations.NumericOperandRanges : Prop :=
  ∀ (syms : Symbols) (ia : Word) (d b : Reg) (n : Int),
    (∀ name ops form, (name, ops, form) ∈ imm5Forms d b n →
      (-16 ≤ n ∧ n ≤ 15 → ∃ v : BitVec 5, v.toInt = n ∧ assembleInstr syms ia name ops = .ok (form v)) ∧
      (¬(-16 ≤ n ∧ n ≤ 15) → assembleInstr syms ia name ops = .error .outOfRange)) ∧
    (∀ name ops form, (name, ops, form) ∈ offset6Forms d b n →
      (0 ≤ n ∧ n ≤ 63 → ∃ v : BitVec 6, (v.toNat : Int) = n ∧ assembleInstr syms ia name ops = .ok (form v)) ∧
      (¬(0 ≤ n ∧ n ≤ 63) → assembleInstr syms ia name ops = .error .outOfRange)) ∧
    (0 ≤ n ∧ n ≤ 255 → ∃ v : BitVec 8, (v.toNat : Int) = n ∧
      assembleInstr syms ia "TRAP" [.num n] = .ok (.trap v)) ∧
    (¬(0 ≤ n ∧ n ≤ 255) → assembleInstr syms ia "TRAP" [.num n] = .error .outOfRange)
end

