-- ==== Sys2Proof/Laws/Assembler.lean ====
section
/-! SUPPORT. What the assembler does with a line that has a label or a numeric operand, for every mnemonic that takes
one (spec/44_assembler.md R142 to R144). -/

namespace Sys2Proof.Machine

open Sys2Proof

variable {syms : Symbols} {ia : Word} {d b : Reg} {n : Int} {l name : String} {ops : List Operand}

theorem assembleInstr_label {form : BitVec 9 → Instr} (h : (name, ops, form) ∈ labelForms d l) :
    assembleInstr syms ia name ops = (labelOffset syms ia l).map form := by
  simp only [labelForms, List.cons_append, List.nil_append, List.mem_cons, Prod.mk.injEq, List.not_mem_nil,
    or_false] at h
  rcases h with h | h | h | h | h | h | h | h | h | h | h | h | h | h | h <;> (obtain ⟨rfl, rfl, rfl⟩ := h; rfl)

theorem assembleInstr_imm5 {form : BitVec 5 → Instr} (h : (name, ops, form) ∈ imm5Forms d b n) :
    assembleInstr syms ia name ops = (fieldIn (-16) 15 5 n).map form := by
  simp only [imm5Forms, List.mem_cons, Prod.mk.injEq, List.not_mem_nil, or_false] at h
  rcases h with h | h <;> (obtain ⟨rfl, rfl, rfl⟩ := h; rfl)

theorem assembleInstr_offset6 {form : BitVec 6 → Instr} (h : (name, ops, form) ∈ offset6Forms d b n) :
    assembleInstr syms ia name ops = (fieldIn 0 63 6 n).map form := by
  simp only [offset6Forms, List.mem_cons, Prod.mk.injEq, List.not_mem_nil, or_false] at h
  rcases h with h | h | h | h <;> (obtain ⟨rfl, rfl, rfl⟩ := h; rfl)

theorem assembleInstr_trap_num : assembleInstr syms ia "TRAP" [.num n] = (fieldIn 0 255 8 n).map .trap := rfl

end Sys2Proof.Machine
end

