-- ==== Sys2Proof/Laws/State.lean ====
section
/-! SUPPORT. One lemma per field per update of State, true by rfl, so that no proof unfolds a record update. -/

namespace Sys2Proof.Machine

/-! ### setReg -/

@[simp] theorem State.setReg_regs (s : State) (r : Reg) (v : Word) : (s.setReg r v).regs = s.regs.set r v := rfl
@[simp] theorem State.setReg_pc (s : State) (r : Reg) (v : Word) : (s.setReg r v).pc = s.pc := rfl
@[simp] theorem State.setReg_cc (s : State) (r : Reg) (v : Word) : (s.setReg r v).cc = s.cc := rfl
@[simp] theorem State.setReg_mem (s : State) (r : Reg) (v : Word) : (s.setReg r v).mem = s.mem := rfl
@[simp] theorem State.setReg_dev (s : State) (r : Reg) (v : Word) : (s.setReg r v).dev = s.dev := rfl
@[simp] theorem State.setReg_env (s : State) (r : Reg) (v : Word) : (s.setReg r v).env = s.env := rfl
@[simp] theorem State.setReg_draws (s : State) (r : Reg) (v : Word) : (s.setReg r v).draws = s.draws := rfl
@[simp] theorem State.setReg_params (s : State) (r : Reg) (v : Word) : (s.setReg r v).params = s.params := rfl
@[simp] theorem State.setReg_word (s : State) (r : Reg) (v : Word) (a : Word) : (s.setReg r v).word a = s.word a := rfl
@[simp] theorem State.setReg_isRam (s : State) (r : Reg) (v : Word) (a : Word) : (s.setReg r v).isRam a = s.isRam a := rfl

/-! ### jumpTo -/

@[simp] theorem State.jumpTo_regs (s : State) (t : Word) : (s.jumpTo t).regs = s.regs := rfl
@[simp] theorem State.jumpTo_pc (s : State) (t : Word) : (s.jumpTo t).pc = t := rfl
@[simp] theorem State.jumpTo_cc (s : State) (t : Word) : (s.jumpTo t).cc = s.cc := rfl
@[simp] theorem State.jumpTo_mem (s : State) (t : Word) : (s.jumpTo t).mem = s.mem := rfl
@[simp] theorem State.jumpTo_dev (s : State) (t : Word) : (s.jumpTo t).dev = s.dev := rfl
@[simp] theorem State.jumpTo_env (s : State) (t : Word) : (s.jumpTo t).env = s.env := rfl
@[simp] theorem State.jumpTo_draws (s : State) (t : Word) : (s.jumpTo t).draws = s.draws := rfl
@[simp] theorem State.jumpTo_params (s : State) (t : Word) : (s.jumpTo t).params = s.params := rfl
@[simp] theorem State.jumpTo_x (s : State) (t : Word) (q : Reg) : (s.jumpTo t).x q = s.x q := rfl
@[simp] theorem State.jumpTo_word (s : State) (t : Word) (a : Word) : (s.jumpTo t).word a = s.word a := rfl
@[simp] theorem State.jumpTo_isRam (s : State) (t : Word) (a : Word) : (s.jumpTo t).isRam a = s.isRam a := rfl

/-! ### advance -/

@[simp] theorem State.advance_regs (s : State) : (s.advance).regs = s.regs := rfl
@[simp] theorem State.advance_pc (s : State) : (s.advance).pc = s.pc + 1#16 := rfl
@[simp] theorem State.advance_cc (s : State) : (s.advance).cc = s.cc := rfl
@[simp] theorem State.advance_mem (s : State) : (s.advance).mem = s.mem := rfl
@[simp] theorem State.advance_dev (s : State) : (s.advance).dev = s.dev := rfl
@[simp] theorem State.advance_env (s : State) : (s.advance).env = s.env := rfl
@[simp] theorem State.advance_draws (s : State) : (s.advance).draws = s.draws := rfl
@[simp] theorem State.advance_params (s : State) : (s.advance).params = s.params := rfl
@[simp] theorem State.advance_x (s : State) (q : Reg) : (s.advance).x q = s.x q := rfl
@[simp] theorem State.advance_word (s : State) (a : Word) : (s.advance).word a = s.word a := rfl
@[simp] theorem State.advance_isRam (s : State) (a : Word) : (s.advance).isRam a = s.isRam a := rfl

/-! ### result -/

@[simp] theorem State.result_regs (s : State) (dr : Reg) (v : Word) : (s.result dr v).regs = s.regs.set dr v := rfl
@[simp] theorem State.result_pc (s : State) (dr : Reg) (v : Word) : (s.result dr v).pc = s.pc + 1#16 := rfl
@[simp] theorem State.result_cc (s : State) (dr : Reg) (v : Word) : (s.result dr v).cc = CC.ofWord v := rfl
@[simp] theorem State.result_mem (s : State) (dr : Reg) (v : Word) : (s.result dr v).mem = s.mem := rfl
@[simp] theorem State.result_dev (s : State) (dr : Reg) (v : Word) : (s.result dr v).dev = s.dev := rfl
@[simp] theorem State.result_env (s : State) (dr : Reg) (v : Word) : (s.result dr v).env = s.env := rfl
@[simp] theorem State.result_draws (s : State) (dr : Reg) (v : Word) : (s.result dr v).draws = s.draws := rfl
@[simp] theorem State.result_params (s : State) (dr : Reg) (v : Word) : (s.result dr v).params = s.params := rfl
@[simp] theorem State.result_word (s : State) (dr : Reg) (v : Word) (a : Word) : (s.result dr v).word a = s.word a := rfl
@[simp] theorem State.result_isRam (s : State) (dr : Reg) (v : Word) (a : Word) : (s.result dr v).isRam a = s.isRam a := rfl

/-! ### link -/

@[simp] theorem State.link_regs (s : State) (t : Word) : (s.link t).regs = s.regs.set .r7 (s.pc + 1#16) := rfl
@[simp] theorem State.link_pc (s : State) (t : Word) : (s.link t).pc = t := rfl
@[simp] theorem State.link_cc (s : State) (t : Word) : (s.link t).cc = s.cc := rfl
@[simp] theorem State.link_mem (s : State) (t : Word) : (s.link t).mem = s.mem := rfl
@[simp] theorem State.link_dev (s : State) (t : Word) : (s.link t).dev = s.dev := rfl
@[simp] theorem State.link_env (s : State) (t : Word) : (s.link t).env = s.env := rfl
@[simp] theorem State.link_draws (s : State) (t : Word) : (s.link t).draws = s.draws := rfl
@[simp] theorem State.link_params (s : State) (t : Word) : (s.link t).params = s.params := rfl
@[simp] theorem State.link_word (s : State) (t : Word) (a : Word) : (s.link t).word a = s.word a := rfl
@[simp] theorem State.link_isRam (s : State) (t : Word) (a : Word) : (s.link t).isRam a = s.isRam a := rfl

/-! ### returnByLink -/

@[simp] theorem State.returnByLink_regs (s : State) : (s.returnByLink).regs = s.regs := rfl
@[simp] theorem State.returnByLink_pc (s : State) : (s.returnByLink).pc = s.x .r7 := rfl
@[simp] theorem State.returnByLink_cc (s : State) : (s.returnByLink).cc = s.cc := rfl
@[simp] theorem State.returnByLink_mem (s : State) : (s.returnByLink).mem = s.mem := rfl
@[simp] theorem State.returnByLink_dev (s : State) : (s.returnByLink).dev = s.dev := rfl
@[simp] theorem State.returnByLink_env (s : State) : (s.returnByLink).env = s.env := rfl
@[simp] theorem State.returnByLink_draws (s : State) : (s.returnByLink).draws = s.draws := rfl
@[simp] theorem State.returnByLink_params (s : State) : (s.returnByLink).params = s.params := rfl
@[simp] theorem State.returnByLink_x (s : State) (q : Reg) : (s.returnByLink).x q = s.x q := rfl
@[simp] theorem State.returnByLink_word (s : State) (a : Word) : (s.returnByLink).word a = s.word a := rfl
@[simp] theorem State.returnByLink_isRam (s : State) (a : Word) : (s.returnByLink).isRam a = s.isRam a := rfl

/-! ### setWord -/

@[simp] theorem State.setWord_regs (s : State) (a v : Word) : (s.setWord a v).regs = s.regs := rfl
@[simp] theorem State.setWord_pc (s : State) (a v : Word) : (s.setWord a v).pc = s.pc := rfl
@[simp] theorem State.setWord_cc (s : State) (a v : Word) : (s.setWord a v).cc = s.cc := rfl
@[simp] theorem State.setWord_mem (s : State) (a v : Word) : (s.setWord a v).mem = Memory.write s.mem a.toNat v := rfl
@[simp] theorem State.setWord_dev (s : State) (a v : Word) : (s.setWord a v).dev = s.dev := rfl
@[simp] theorem State.setWord_env (s : State) (a v : Word) : (s.setWord a v).env = s.env := rfl
@[simp] theorem State.setWord_draws (s : State) (a v : Word) : (s.setWord a v).draws = s.draws := rfl
@[simp] theorem State.setWord_params (s : State) (a v : Word) : (s.setWord a v).params = s.params := rfl
@[simp] theorem State.setWord_x (s : State) (a v : Word) (q : Reg) : (s.setWord a v).x q = s.x q := rfl
@[simp] theorem State.setWord_isRam (s : State) (a v b : Word) : (s.setWord a v).isRam b = s.isRam b := rfl

/-! ### afterDraw -/

@[simp] theorem State.afterDraw_regs (s : State) : (s.afterDraw).regs = s.regs := rfl
@[simp] theorem State.afterDraw_pc (s : State) : (s.afterDraw).pc = s.pc := rfl
@[simp] theorem State.afterDraw_cc (s : State) : (s.afterDraw).cc = s.cc := rfl
@[simp] theorem State.afterDraw_mem (s : State) : (s.afterDraw).mem = s.mem := rfl
@[simp] theorem State.afterDraw_dev (s : State) : (s.afterDraw).dev = s.dev := rfl
@[simp] theorem State.afterDraw_env (s : State) : (s.afterDraw).env = s.env := rfl
@[simp] theorem State.afterDraw_draws (s : State) : (s.afterDraw).draws = s.draws + 1 := rfl
@[simp] theorem State.afterDraw_params (s : State) : (s.afterDraw).params = s.params := rfl
@[simp] theorem State.afterDraw_x (s : State) (q : Reg) : (s.afterDraw).x q = s.x q := rfl
@[simp] theorem State.afterDraw_word (s : State) (a : Word) : (s.afterDraw).word a = s.word a := rfl
@[simp] theorem State.afterDraw_isRam (s : State) (a : Word) : (s.afterDraw).isRam a = s.isRam a := rfl

/-! ### display -/

@[simp] theorem State.display_regs (s : State) (c : Byte) : (s.display c).regs = s.regs := rfl
@[simp] theorem State.display_pc (s : State) (c : Byte) : (s.display c).pc = s.pc := rfl
@[simp] theorem State.display_cc (s : State) (c : Byte) : (s.display c).cc = s.cc := rfl
@[simp] theorem State.display_mem (s : State) (c : Byte) : (s.display c).mem = s.mem := rfl
@[simp] theorem State.display_dev (s : State) (c : Byte) : (s.display c).dev = { s.dev with crtOut := s.dev.crtOut ++ [c], crtReady := s.drawn.getLsbD 0 } := rfl
@[simp] theorem State.display_env (s : State) (c : Byte) : (s.display c).env = s.env := rfl
@[simp] theorem State.display_draws (s : State) (c : Byte) : (s.display c).draws = s.draws + 1 := rfl
@[simp] theorem State.display_params (s : State) (c : Byte) : (s.display c).params = s.params := rfl
@[simp] theorem State.display_x (s : State) (c : Byte) (q : Reg) : (s.display c).x q = s.x q := rfl
@[simp] theorem State.display_word (s : State) (c : Byte) (a : Word) : (s.display c).word a = s.word a := rfl
@[simp] theorem State.display_isRam (s : State) (c : Byte) (a : Word) : (s.display c).isRam a = s.isRam a := rfl

/-! ### writeMcr -/

@[simp] theorem State.writeMcr_regs (s : State) (v : Word) : (s.writeMcr v).regs = s.regs := rfl
@[simp] theorem State.writeMcr_pc (s : State) (v : Word) : (s.writeMcr v).pc = s.pc := rfl
@[simp] theorem State.writeMcr_cc (s : State) (v : Word) : (s.writeMcr v).cc = s.cc := rfl
@[simp] theorem State.writeMcr_mem (s : State) (v : Word) : (s.writeMcr v).mem = s.mem := rfl
@[simp] theorem State.writeMcr_dev (s : State) (v : Word) : (s.writeMcr v).dev = { s.dev with clockEnable := v.msb, mcrLow := v.extractLsb' 0 15, mcrWritten := true } := rfl
@[simp] theorem State.writeMcr_env (s : State) (v : Word) : (s.writeMcr v).env = s.env := rfl
@[simp] theorem State.writeMcr_draws (s : State) (v : Word) : (s.writeMcr v).draws = s.draws := rfl
@[simp] theorem State.writeMcr_params (s : State) (v : Word) : (s.writeMcr v).params = s.params := rfl
@[simp] theorem State.writeMcr_x (s : State) (v : Word) (q : Reg) : (s.writeMcr v).x q = s.x q := rfl
@[simp] theorem State.writeMcr_word (s : State) (v : Word) (a : Word) : (s.writeMcr v).word a = s.word a := rfl
@[simp] theorem State.writeMcr_isRam (s : State) (v : Word) (a : Word) : (s.writeMcr v).isRam a = s.isRam a := rfl

/-! ### freeReg -/

@[simp] theorem State.freeReg_regs (s : State) (r : Reg) : (s.freeReg r).regs = s.regs.set r s.drawn := rfl
@[simp] theorem State.freeReg_pc (s : State) (r : Reg) : (s.freeReg r).pc = s.pc := rfl
@[simp] theorem State.freeReg_cc (s : State) (r : Reg) : (s.freeReg r).cc = s.cc := rfl
@[simp] theorem State.freeReg_mem (s : State) (r : Reg) : (s.freeReg r).mem = s.mem := rfl
@[simp] theorem State.freeReg_dev (s : State) (r : Reg) : (s.freeReg r).dev = s.dev := rfl
@[simp] theorem State.freeReg_env (s : State) (r : Reg) : (s.freeReg r).env = s.env := rfl
@[simp] theorem State.freeReg_draws (s : State) (r : Reg) : (s.freeReg r).draws = s.draws + 1 := rfl
@[simp] theorem State.freeReg_params (s : State) (r : Reg) : (s.freeReg r).params = s.params := rfl
@[simp] theorem State.freeReg_word (s : State) (r : Reg) (a : Word) : (s.freeReg r).word a = s.word a := rfl
@[simp] theorem State.freeReg_isRam (s : State) (r : Reg) (a : Word) : (s.freeReg r).isRam a = s.isRam a := rfl

/-! ### freeCodes -/

@[simp] theorem State.freeCodes_regs (s : State) : (s.freeCodes).regs = s.regs := rfl
@[simp] theorem State.freeCodes_pc (s : State) : (s.freeCodes).pc = s.pc := rfl
@[simp] theorem State.freeCodes_cc (s : State) : (s.freeCodes).cc = CC.ofDraw s.drawn := rfl
@[simp] theorem State.freeCodes_mem (s : State) : (s.freeCodes).mem = s.mem := rfl
@[simp] theorem State.freeCodes_dev (s : State) : (s.freeCodes).dev = s.dev := rfl
@[simp] theorem State.freeCodes_env (s : State) : (s.freeCodes).env = s.env := rfl
@[simp] theorem State.freeCodes_draws (s : State) : (s.freeCodes).draws = s.draws + 1 := rfl
@[simp] theorem State.freeCodes_params (s : State) : (s.freeCodes).params = s.params := rfl
@[simp] theorem State.freeCodes_x (s : State) (q : Reg) : (s.freeCodes).x q = s.x q := rfl
@[simp] theorem State.freeCodes_word (s : State) (a : Word) : (s.freeCodes).word a = s.word a := rfl
@[simp] theorem State.freeCodes_isRam (s : State) (a : Word) : (s.freeCodes).isRam a = s.isRam a := rfl

/-! ### idle -/

@[simp] theorem State.idle_regs (s : State) : s.idle.regs = s.regs := by unfold State.idle; split <;> rfl
@[simp] theorem State.idle_pc (s : State) : s.idle.pc = s.pc := by unfold State.idle; split <;> rfl
@[simp] theorem State.idle_cc (s : State) : s.idle.cc = s.cc := by unfold State.idle; split <;> rfl
@[simp] theorem State.idle_mem (s : State) : s.idle.mem = s.mem := by unfold State.idle; split <;> rfl
@[simp] theorem State.idle_env (s : State) : s.idle.env = s.env := by unfold State.idle; split <;> rfl
@[simp] theorem State.idle_draws (s : State) : s.idle.draws = s.draws := by unfold State.idle; split <;> rfl
@[simp] theorem State.idle_params (s : State) : s.idle.params = s.params := by unfold State.idle; split <;> rfl
@[simp] theorem State.idle_crtOut (s : State) : s.idle.dev.crtOut = s.dev.crtOut := by
  unfold State.idle; split <;> rfl
@[simp] theorem State.idle_clockEnable (s : State) : s.idle.dev.clockEnable = s.dev.clockEnable := by
  unfold State.idle; split <;> rfl
@[simp] theorem State.idle_mcrLow (s : State) : s.idle.dev.mcrLow = s.dev.mcrLow := by
  unfold State.idle; split <;> rfl
@[simp] theorem State.idle_mcrWritten (s : State) : s.idle.dev.mcrWritten = s.dev.mcrWritten := by
  unfold State.idle; split <;> rfl
@[simp] theorem State.idle_kbReady (s : State) : s.idle.dev.kbReady = s.dev.kbReady := by
  unfold State.idle; split <;> rfl
@[simp] theorem State.idle_kbChar (s : State) : s.idle.dev.kbChar = s.dev.kbChar := by
  unfold State.idle; split <;> rfl
@[simp] theorem State.idle_crtReady (s : State) :
    s.idle.dev.crtReady = (s.dev.crtReady || s.params.crtEventuallyReady) := by
  unfold State.idle; split <;> simp_all [State.deviceStep]

/-! ### restore -/

@[simp] theorem State.restore_regs (s : State) (r : RtiParams) (w1 w2 : Word) : (s.restore r w1 w2).regs = s.regs := rfl
@[simp] theorem State.restore_pc (s : State) (r : RtiParams) (w1 w2 : Word) : (s.restore r w1 w2).pc = if r.pcFirst then w1 else w2 := rfl
@[simp] theorem State.restore_cc (s : State) (r : RtiParams) (w1 w2 : Word) : (s.restore r w1 w2).cc = CC.ofSaved r (if r.pcFirst then w2 else w1) := rfl
@[simp] theorem State.restore_mem (s : State) (r : RtiParams) (w1 w2 : Word) : (s.restore r w1 w2).mem = s.mem := rfl
@[simp] theorem State.restore_dev (s : State) (r : RtiParams) (w1 w2 : Word) : (s.restore r w1 w2).dev = s.dev := rfl
@[simp] theorem State.restore_env (s : State) (r : RtiParams) (w1 w2 : Word) : (s.restore r w1 w2).env = s.env := rfl
@[simp] theorem State.restore_draws (s : State) (r : RtiParams) (w1 w2 : Word) : (s.restore r w1 w2).draws = s.draws := rfl
@[simp] theorem State.restore_params (s : State) (r : RtiParams) (w1 w2 : Word) : (s.restore r w1 w2).params = s.params := rfl
@[simp] theorem State.restore_x (s : State) (r : RtiParams) (w1 w2 : Word) (q : Reg) : (s.restore r w1 w2).x q = s.x q := rfl
@[simp] theorem State.restore_word (s : State) (r : RtiParams) (w1 w2 : Word) (a : Word) : (s.restore r w1 w2).word a = s.word a := rfl
@[simp] theorem State.restore_isRam (s : State) (r : RtiParams) (w1 w2 : Word) (a : Word) : (s.restore r w1 w2).isRam a = s.isRam a := rfl

/-! ### haltMessage -/

@[simp] theorem State.haltMessage_regs (s : State) : (s.haltMessage).regs = s.regs := rfl
@[simp] theorem State.haltMessage_pc (s : State) : (s.haltMessage).pc = s.pc := rfl
@[simp] theorem State.haltMessage_cc (s : State) : (s.haltMessage).cc = s.cc := rfl
@[simp] theorem State.haltMessage_mem (s : State) : (s.haltMessage).mem = s.mem := rfl
@[simp] theorem State.haltMessage_dev (s : State) : (s.haltMessage).dev = { s.dev with crtOut := s.dev.crtOut ++ Config.haltMessage s.draws, crtReady := s.drawn.getLsbD 0 } := rfl
@[simp] theorem State.haltMessage_env (s : State) : (s.haltMessage).env = s.env := rfl
@[simp] theorem State.haltMessage_draws (s : State) : (s.haltMessage).draws = s.draws + 1 := rfl
@[simp] theorem State.haltMessage_params (s : State) : (s.haltMessage).params = s.params := rfl
@[simp] theorem State.haltMessage_x (s : State) (q : Reg) : (s.haltMessage).x q = s.x q := rfl
@[simp] theorem State.haltMessage_word (s : State) (a : Word) : (s.haltMessage).word a = s.word a := rfl
@[simp] theorem State.haltMessage_isRam (s : State) (a : Word) : (s.haltMessage).isRam a = s.isRam a := rfl

/-! ### one device step -/

@[simp] theorem State.deviceStep_regs (s : State) (e : DeviceEvent) : (s.deviceStep e).regs = s.regs := by
  cases e <;> rfl
@[simp] theorem State.deviceStep_pc (s : State) (e : DeviceEvent) : (s.deviceStep e).pc = s.pc := by
  cases e <;> rfl
@[simp] theorem State.deviceStep_cc (s : State) (e : DeviceEvent) : (s.deviceStep e).cc = s.cc := by
  cases e <;> rfl
@[simp] theorem State.deviceStep_mem (s : State) (e : DeviceEvent) : (s.deviceStep e).mem = s.mem := by
  cases e <;> rfl
@[simp] theorem State.deviceStep_env (s : State) (e : DeviceEvent) : (s.deviceStep e).env = s.env := by
  cases e <;> rfl
@[simp] theorem State.deviceStep_draws (s : State) (e : DeviceEvent) : (s.deviceStep e).draws = s.draws := by
  cases e <;> rfl
@[simp] theorem State.deviceStep_params (s : State) (e : DeviceEvent) : (s.deviceStep e).params = s.params := by
  cases e <;> rfl

end Sys2Proof.Machine
end

