-- ==== Sys2Proof/Laws/Memory.lean ====
section
/-! SUPPORT. The laws of memory: every write keeps the canonical form; a read answers the last write. -/

namespace Sys2Proof.Machine

@[simp] theorem Memory.wfFrom_nil (lo : Nat) : Memory.wfFrom lo [] = true := rfl

theorem Memory.wfFrom_cons {lo k : Nat} {w : Word} {m : Memory} :
    Memory.wfFrom lo ((k, w) :: m) = true ↔
      lo ≤ k ∧ k < 65536 ∧ w ≠ unlistedWord ∧ Memory.wfFrom (k + 1) m = true := by
  simp [Memory.wfFrom, and_assoc]

theorem Memory.wfFrom_mono {lo lo' : Nat} {m : Memory} (h : lo ≤ lo') (hm : Memory.wfFrom lo' m = true) :
    Memory.wfFrom lo m = true := by
  cases m with
  | nil => rfl
  | cons c m =>
    obtain ⟨k, w⟩ := c
    rw [Memory.wfFrom_cons] at hm ⊢
    exact ⟨by omega, hm.2⟩

/-- A cell in front of a memory whose addresses all lie above it. -/
theorem Memory.wfFrom_cell {lo a : Nat} {v : Word} {m : Memory} (h1 : lo ≤ a) (h2 : a < 65536)
    (hm : Memory.wfFrom (a + 1) m = true) : Memory.wfFrom lo (Memory.cell a v m) = true := by
  unfold Memory.cell
  split
  · exact Memory.wfFrom_mono (by omega) hm
  · exact Memory.wfFrom_cons.2 ⟨h1, h2, ‹_›, hm⟩

theorem Memory.wfFrom_write {m : Memory} {lo a : Nat} {v : Word} (h1 : lo ≤ a) (h2 : a < 65536)
    (hm : Memory.wfFrom lo m = true) : Memory.wfFrom lo (Memory.write m a v) = true := by
  induction m generalizing lo with
  | nil => exact Memory.wfFrom_cell h1 h2 rfl
  | cons c m ih =>
    obtain ⟨k, w⟩ := c
    have hc := Memory.wfFrom_cons.1 hm
    unfold Memory.write
    split
    · exact Memory.wfFrom_cell h1 h2 (Memory.wfFrom_cons.2 ⟨by omega, hc.2⟩)
    · split
      · subst_vars; exact Memory.wfFrom_cell h1 h2 hc.2.2.2
      · exact Memory.wfFrom_cons.2 ⟨hc.1, hc.2.1, hc.2.2.1, ih (by omega) hc.2.2.2⟩

/-- A write at an address of the space keeps the canonical form. -/
theorem Memory.wf_write {m : Memory} (a v : Word) (hm : Memory.wf m = true) :
    Memory.wf (Memory.write m a.toNat v) = true :=
  Memory.wfFrom_write (Nat.zero_le _) a.isLt hm

/-- A memory whose addresses all lie above `a` does not list `a`. -/
theorem Memory.read_of_wfFrom {lo a : Nat} {m : Memory} (hm : Memory.wfFrom lo m = true) (h : a < lo) :
    Memory.read m a = unlistedWord := by
  cases m with
  | nil => rfl
  | cons c m =>
    obtain ⟨k, w⟩ := c
    have hc := Memory.wfFrom_cons.1 hm
    simp [Memory.read, show a < k by omega]

theorem Memory.read_cell {lo a b : Nat} {v : Word} {m : Memory} (hm : Memory.wfFrom lo m = true) (h : a < lo) :
    Memory.read (Memory.cell a v m) b = if b = a then v else Memory.read m b := by
  unfold Memory.cell
  by_cases hv : v = unlistedWord
  · by_cases hb : b = a
    · subst hb; subst hv; simp [Memory.read_of_wfFrom hm h]
    · simp [hv, hb]
  · rw [if_neg hv, Memory.read]
    by_cases h1 : b < a
    · simp [h1, show b ≠ a by omega, Memory.read_of_wfFrom hm (show b < lo by omega)]
    · simp [h1]

/-- A read after a write: the word written at its address, and what was there at every other. -/
theorem Memory.read_write {m : Memory} {lo a b : Nat} {v : Word} (hm : Memory.wfFrom lo m = true) :
    Memory.read (Memory.write m a v) b = if b = a then v else Memory.read m b := by
  induction m generalizing lo with
  | nil => exact Memory.read_cell (lo := a + 1) rfl (by omega)
  | cons c m ih =>
    obtain ⟨k, w⟩ := c
    have hc := Memory.wfFrom_cons.1 hm
    unfold Memory.write
    split
    · rename_i hak
      exact Memory.read_cell (lo := k) (Memory.wfFrom_cons.2 ⟨le_refl k, hc.2⟩) hak
    · split
      · subst_vars
        rw [Memory.read_cell hc.2.2.2 (by omega)]
        by_cases hb : b = k
        · simp [hb]
        · simp only [hb, if_false, Memory.read]
          split
          · rw [Memory.read_of_wfFrom hc.2.2.2 (by omega)]
          · rfl
      · simp only [Memory.read]
        rw [ih hc.2.2.2]
        by_cases hb : b = a
        · subst hb; simp [*]
        · simp [hb]

theorem State.word_setWord {s : State} (h : Memory.wf s.mem = true) (a v b : Word) :
    (s.setWord a v).word b = if b = a then v else s.word b := by
  have := Memory.read_write (m := s.mem) (a := a.toNat) (b := b.toNat) (v := v) h
  simpa [State.word, BitVec.toNat_inj] using this

/-- Storing to one address does not change what another reads. -/
theorem Memory.read_write_ne {m : Memory} {a b : Nat} {v : Word} (hm : Memory.wf m = true) (h : b ≠ a) :
    Memory.read (Memory.write m a v) b = Memory.read m b := by
  rw [Memory.read_write hm, if_neg h]

theorem State.reset_mem_canonical : Memory.wf State.reset.mem = true := rfl

end Sys2Proof.Machine
end

