-- ==== Sys2Proof/Laws/Registers.lean ====
section
/-! SUPPORT. Reading a register after writing one; the condition codes. -/

namespace Sys2Proof.Machine

@[simp] theorem Regs.get_set_same (g : Regs) (r : Reg) (v : Word) : (g.set r v).get r = v := by cases r <;> rfl

theorem Regs.get_set_ne (g : Regs) {r q : Reg} (v : Word) (h : q ≠ r) : (g.set r v).get q = g.get q := by
  cases r <;> cases q <;> first | rfl | exact absurd rfl h

theorem Regs.get_set (g : Regs) (r q : Reg) (v : Word) : (g.set r v).get q = if q = r then v else g.get q := by
  by_cases h : q = r
  · subst h; simp
  · simp [h, Regs.get_set_ne]

@[simp] theorem State.setReg_x_same (s : State) (r : Reg) (v : Word) : (s.setReg r v).x r = v :=
  Regs.get_set_same _ _ _

theorem State.setReg_x (s : State) (r q : Reg) (v : Word) : (s.setReg r v).x q = if q = r then v else s.x q :=
  Regs.get_set _ _ _ _

theorem State.result_x (s : State) (r q : Reg) (v : Word) : (s.result r v).x q = if q = r then v else s.x q :=
  Regs.get_set _ _ _ _

theorem State.link_x (s : State) (q : Reg) (t : Word) : (s.link t).x q = if q = .r7 then s.pc + 1#16 else s.x q :=
  Regs.get_set _ _ _ _

theorem State.freeReg_x (s : State) (r q : Reg) : (s.freeReg r).x q = if q = r then s.drawn else s.x q :=
  Regs.get_set _ _ _ _

theorem CC.ofWord_oneHot (v : Word) : (CC.ofWord v).oneHot = true := by
  by_cases hz : v = 0#16
  · subst hz; decide
  · cases hn : v.msb <;> simp [CC.ofWord, CC.oneHot, hn, hz]

theorem CC.ofDraw_oneHot (x : Word) : (CC.ofDraw x).oneHot = true := by
  unfold CC.ofDraw; split
  · rfl
  · split <;> rfl

end Sys2Proof.Machine
end

