-- ==== Sys2Proof/Laws/Ops.lean ====
section
/-! SUPPORT. One spec lemma per shared operation: everything it can do, to be cited instead of unfolding it. -/

namespace Sys2Proof.Machine

/-! ### The gap -/

/-- What only the devices' registers can have changed of. -/
structure SameCore (s t : State) : Prop where
  regs : t.regs = s.regs
  pc : t.pc = s.pc
  cc : t.cc = s.cc
  mem : t.mem = s.mem
  params : t.params = s.params

theorem SameCore.rfl {s : State} : SameCore s s := ⟨.refl _, .refl _, .refl _, .refl _, .refl _⟩

theorem SameCore.trans {s t u : State} (h : SameCore s t) (k : SameCore t u) : SameCore s u :=
  ⟨k.regs.trans h.regs, k.pc.trans h.pc, k.cc.trans h.cc, k.mem.trans h.mem, k.params.trans h.params⟩

theorem SameCore.x {s t : State} (h : SameCore s t) (r : Reg) : t.x r = s.x r := by simp [State.x, h.regs]

theorem SameCore.word {s t : State} (h : SameCore s t) (a : Word) : t.word a = s.word a := by
  simp [State.word, h.mem]

theorem SameCore.isRam {s t : State} (h : SameCore s t) (a : Word) : t.isRam a = s.isRam a := by
  simp [State.isRam, h.params]

theorem SameCore.ordinary {s t : State} (h : SameCore s t) (a : Word) : t.ordinary a = s.ordinary a := by
  simp [State.ordinary, h.isRam]

theorem SameCore.pageAddr {s t : State} (h : SameCore s t) (po : BitVec 9) : t.pageAddr po = s.pageAddr po := by
  simp [State.pageAddr, State.nextPc, h.pc, h.params]

theorem deviceStep_sameCore (s : State) (e : DeviceEvent) : SameCore s (s.deviceStep e) := by
  cases e <;> exact ⟨rfl, rfl, rfl, rfl, rfl⟩

theorem deviceSteps_sameCore (es : List DeviceEvent) (s : State) : SameCore s (s.deviceSteps es) := by
  induction es generalizing s with
  | nil => exact .rfl
  | cons e es ih => exact (deviceStep_sameCore s e).trans (ih _)

theorem idle_sameCore (s : State) : SameCore s s.idle := ⟨by simp, by simp, by simp, by simp, by simp⟩

/-- The devices change nothing but their own registers and the schedule. -/
theorem gap_sameCore (s : State) : SameCore s s.gap := by
  unfold State.gap
  split
  · exact idle_sameCore s
  · rename_i es rest _
    exact SameCore.trans (t := { s with env := rest }) ⟨rfl, rfl, rfl, rfl, rfl⟩ (deviceSteps_sameCore es _)

@[simp] theorem gap_regs (s : State) : s.gap.regs = s.regs := (gap_sameCore s).regs
@[simp] theorem gap_pc (s : State) : s.gap.pc = s.pc := (gap_sameCore s).pc
@[simp] theorem gap_cc (s : State) : s.gap.cc = s.cc := (gap_sameCore s).cc
@[simp] theorem gap_mem (s : State) : s.gap.mem = s.mem := (gap_sameCore s).mem
@[simp] theorem gap_params (s : State) : s.gap.params = s.params := (gap_sameCore s).params
@[simp] theorem gap_x (s : State) (r : Reg) : s.gap.x r = s.x r := (gap_sameCore s).x r
@[simp] theorem gap_word (s : State) (a : Word) : s.gap.word a = s.word a := (gap_sameCore s).word a
@[simp] theorem gap_isRam (s : State) (a : Word) : s.gap.isRam a = s.isRam a := (gap_sameCore s).isRam a

theorem deviceSteps_draws (es : List DeviceEvent) (s : State) : (s.deviceSteps es).draws = s.draws := by
  induction es generalizing s with
  | nil => rfl
  | cons e es ih => exact (ih _).trans (State.deviceStep_draws s e)

@[simp] theorem gap_draws (s : State) : s.gap.draws = s.draws := by
  unfold State.gap
  split
  · simp
  · exact deviceSteps_draws _ _

/-! ### What the gap depends on -/

theorem deviceSteps_env (es : List DeviceEvent) (s : State) : (s.deviceSteps es).env = s.env := by
  induction es generalizing s with
  | nil => rfl
  | cons e es ih => exact (ih _).trans (State.deviceStep_env s e)

/-- Device events see and change the devices alone. -/
theorem deviceSteps_dev_congr (es : List DeviceEvent) {s t : State} (h : s.dev = t.dev) :
    (s.deviceSteps es).dev = (t.deviceSteps es).dev := by
  induction es generalizing s t with
  | nil => exact h
  | cons e es ih => exact ih (by cases e <;> simp [State.deviceStep, h])

@[simp] theorem gap_env (s : State) : s.gap.env = s.env.tail := by
  unfold State.gap; split
  · simp [*]
  · simp [*, deviceSteps_env]

/-- A gap sees and changes the devices and the schedule alone. -/
theorem gap_dev_congr {s t : State} (h : s.dev = t.dev) (k : s.env = t.env) (p : s.params = t.params) :
    s.gap.dev = t.gap.dev := by
  unfold State.gap; rw [k]; split
  · unfold State.idle; rw [p]; split
    · exact congrArg (fun d => { d with crtReady := true }) h
    · exact h
  · exact deviceSteps_dev_congr _ h

/-- The gap, with everything but the devices and the schedule written out. -/
theorem gap_eq (s : State) : s.gap = { s with dev := s.gap.dev, env := s.env.tail } := by
  have h := gap_sameCore s
  obtain ⟨h1, h2, h3, h4, h5⟩ := h
  have h6 := gap_draws s
  have h7 := gap_env s
  revert h1 h2 h3 h4 h5 h6 h7
  generalize s.gap = t
  intro h1 h2 h3 h4 h5 h6 h7
  cases t; simp_all

/-! ### What a device keeps -/

/-- The output so far and the clock are no event's to change. -/
theorem deviceSteps_out_clock (es : List DeviceEvent) (s : State) :
    (s.deviceSteps es).dev.crtOut = s.dev.crtOut ∧ (s.deviceSteps es).dev.clockEnable = s.dev.clockEnable := by
  induction es generalizing s with
  | nil => exact ⟨rfl, rfl⟩
  | cons e es ih =>
    have h := ih (s.deviceStep e)
    have k : (s.deviceStep e).dev.crtOut = s.dev.crtOut ∧
        (s.deviceStep e).dev.clockEnable = s.dev.clockEnable := by cases e <;> exact ⟨rfl, rfl⟩
    exact ⟨h.1.trans k.1, h.2.trans k.2⟩

@[simp] theorem gap_crtOut (s : State) : s.gap.dev.crtOut = s.dev.crtOut := by
  unfold State.gap; split
  · simp
  · exact (deviceSteps_out_clock _ _).1

@[simp] theorem gap_clockEnable (s : State) : s.gap.dev.clockEnable = s.dev.clockEnable := by
  unfold State.gap; split
  · simp
  · exact (deviceSteps_out_clock _ _).2

theorem readDevice_sameCore (s : State) (d : Device) : SameCore s (s.readDevice d).2 := by
  cases d
  case mcr => unfold State.readDevice; simp only; split <;> exact ⟨rfl, rfl, rfl, rfl, rfl⟩
  all_goals exact ⟨rfl, rfl, rfl, rfl, rfl⟩

theorem readDevice_crtOut (s : State) (d : Device) : (s.readDevice d).2.dev.crtOut = s.dev.crtOut := by
  cases d
  case mcr => unfold State.readDevice; simp only; split <;> rfl
  all_goals rfl

theorem readDevice_clockEnable (s : State) (d : Device) :
    (s.readDevice d).2.dev.clockEnable = s.dev.clockEnable := by
  cases d
  case mcr => unfold State.readDevice; simp only; split <;> rfl
  all_goals rfl

/-! ### The memory primitives -/

/-- Everything a read can do: at a device address it answers the device's value; elsewhere it answers the word of
ordinary memory, or is refused where there is none. -/
theorem memRead_cases (s : State) (a : Word) :
    (∃ d, deviceAt a = some d ∧ s.memRead a = .ok (s.gap.readDevice d)) ∨
    (deviceAt a = none ∧ s.isRam a = true ∧ s.memRead a = .ok (s.word a, s.gap)) ∨
    (deviceAt a = none ∧ s.isRam a = false ∧ s.memRead a = .error (.readUnpopulated a)) := by
  unfold State.memRead State.readNow
  cases hd : deviceAt a with
  | some d => exact .inl ⟨d, rfl, rfl⟩
  | none =>
    cases hr : s.isRam a with
    | true => exact .inr (.inl ⟨rfl, rfl, by simp [hr]⟩)
    | false => exact .inr (.inr ⟨rfl, rfl, by simp [hr]⟩)

/-- A read changes nothing but the devices' own state. -/
theorem memRead_sameCore {s t : State} {a v : Word} (h : s.memRead a = .ok (v, t)) : SameCore s t := by
  obtain ⟨d, -, e⟩ | ⟨-, -, e⟩ | ⟨-, -, e⟩ := memRead_cases s a <;> rw [e] at h
  · obtain rfl : (s.gap.readDevice d).2 = t := congrArg Prod.snd (Except.ok.inj h)
    exact (gap_sameCore s).trans (readDevice_sameCore _ d)
  · cases h; exact gap_sameCore s
  · cases h

theorem memRead_crtOut {s t : State} {a v : Word} (h : s.memRead a = .ok (v, t)) :
    t.dev.crtOut = s.dev.crtOut := by
  obtain ⟨d, -, e⟩ | ⟨-, -, e⟩ | ⟨-, -, e⟩ := memRead_cases s a <;> rw [e] at h
  · obtain rfl : (s.gap.readDevice d).2 = t := congrArg Prod.snd (Except.ok.inj h)
    exact (readDevice_crtOut _ d).trans (gap_crtOut s)
  · cases h; exact gap_crtOut s
  · cases h

theorem memRead_clockEnable {s t : State} {a v : Word} (h : s.memRead a = .ok (v, t)) :
    t.dev.clockEnable = s.dev.clockEnable := by
  obtain ⟨d, -, e⟩ | ⟨-, -, e⟩ | ⟨-, -, e⟩ := memRead_cases s a <;> rw [e] at h
  · obtain rfl : (s.gap.readDevice d).2 = t := congrArg Prod.snd (Except.ok.inj h)
    exact (readDevice_clockEnable _ d).trans (gap_clockEnable s)
  · cases h; exact gap_clockEnable s
  · cases h

theorem ordinary_iff {s : State} {a : Word} : s.ordinary a = true ↔ deviceAt a = none ∧ s.isRam a = true := by
  simp [State.ordinary]

theorem memRead_ordinary {s : State} {a : Word} (h : s.ordinary a = true) : s.memRead a = .ok (s.word a, s.gap) := by
  obtain ⟨h1, h2⟩ := ordinary_iff.1 h
  simp [State.memRead, State.readNow, h1, h2]

theorem memRead_device {s : State} {a : Word} {d : Device} (h : deviceAt a = some d) :
    s.memRead a = .ok (s.gap.readDevice d) := by
  simp [State.memRead, State.readNow, h]

/-- Everything a write can do: a word of ordinary memory, a character displayed, the machine control register, or a
refusal. -/
theorem memWrite_cases (s : State) (a v : Word) :
    (s.ordinary a = true ∧ s.memWrite a v = .ok (s.gap.setWord a v)) ∨
    (deviceAt a = some .crtdr ∧ s.gap.dev.crtReady = true ∧
      s.memWrite a v = .ok (s.gap.display (v.extractLsb' 0 8))) ∨
    (deviceAt a = some .mcr ∧ s.memWrite a v = .ok (s.gap.writeMcr v)) ∨
    (∃ r, s.memWrite a v = .error r) := by
  unfold State.memWrite State.writeNow State.ordinary
  cases hd : deviceAt a with
  | none => cases hr : s.isRam a <;> simp [hr]
  | some d =>
    cases d <;> simp [State.writeDevice]
    cases s.gap.dev.crtReady <;> simp

theorem memWrite_ordinary {s : State} {a v : Word} (h : s.ordinary a = true) :
    s.memWrite a v = .ok (s.gap.setWord a v) := by
  obtain ⟨h1, h2⟩ := ordinary_iff.1 h
  simp [State.memWrite, State.writeNow, h1, h2]

/-- A write changes no register, no code, not the PC and no launch parameter. -/
theorem memWrite_keeps {s t : State} {a v : Word} (h : s.memWrite a v = .ok t) :
    t.regs = s.regs ∧ t.pc = s.pc ∧ t.cc = s.cc ∧ t.params = s.params := by
  obtain ⟨-, e⟩ | ⟨-, -, e⟩ | ⟨-, e⟩ | ⟨r, e⟩ := memWrite_cases s a v <;> rw [e] at h <;> cases h <;>
    simp

/-! ### The ends of instructions -/

/-- Everything a load can do. -/
theorem loadFrom_next {s t : State} {dr : Reg} {a : Word} (h : s.loadFrom dr a = .next t) :
    ∃ v u, s.memRead a = .ok (v, u) ∧ t = u.result dr v := by
  unfold State.loadFrom at h
  split at h
  · cases h
  · cases h; exact ⟨_, _, ‹_›, rfl⟩

/-- Everything a store can do. -/
theorem storeTo_next {s t : State} {a v : Word} (h : s.storeTo a v = .next t) :
    ∃ u, s.memWrite a v = .ok u ∧ t = u.advance := by
  unfold State.storeTo at h
  split at h
  · cases h
  · cases h; exact ⟨_, ‹_›, rfl⟩

/-- Everything an indirect load can do. -/
theorem execLdi_next {s t : State} {dr : Reg} {po : BitVec 9} (h : execLdi dr po s = .next t) :
    ∃ ptr u, s.memRead (s.pageAddr po) = .ok (ptr, u) ∧ u.loadFrom dr ptr = .next t := by
  unfold execLdi at h
  split at h
  · cases h
  · exact ⟨_, _, ‹_›, h⟩

/-- Everything an indirect store can do. -/
theorem execSti_next {s t : State} {sr : Reg} {po : BitVec 9} (h : execSti sr po s = .next t) :
    ∃ ptr u, s.memRead (s.pageAddr po) = .ok (ptr, u) ∧ u.storeTo ptr (s.x sr) = .next t := by
  unfold execSti at h
  split at h
  · cases h
  · exact ⟨_, _, ‹_›, h⟩

/-- Everything trap entry can do. -/
theorem trapEntry_next {s t : State} {vec : BitVec 8} (h : s.trapEntry vec = .next t) :
    ∃ v u, s.memRead (vectorAddr vec) = .ok (v, u) ∧ t = u.link v := by
  unfold State.trapEntry at h
  split at h
  · cases h
  · cases h; exact ⟨_, _, ‹_›, rfl⟩

/-- Everything one pop can do. -/
theorem pop_ok {s t : State} {r : RtiParams} {w : Word} (h : s.pop r = .ok (w, t)) :
    ∃ u, s.memRead (popAddr r (s.x r.sp)) = .ok (w, u) ∧ t = u.setReg r.sp (popMoved r (s.x r.sp)) := by
  unfold State.pop at h
  split at h
  · cases h
  · cases h; exact ⟨_, ‹_›, rfl⟩

/-- Everything RTI can do. -/
theorem execRti_next {s t : State} (h : execRti s = .next t) :
    ∃ r w1 u w2 v, s.params.rti = some r ∧ s.pop r = .ok (w1, u) ∧ u.pop r = .ok (w2, v) ∧
      t = v.restore r w1 w2 := by
  unfold execRti at h
  split at h
  · cases h
  · split at h
    · cases h
    · split at h
      · cases h
      · cases h; exact ⟨_, _, _, _, _, ‹_›, ‹_›, ‹_›, rfl⟩

/-- Everything a JSRR can do. -/
theorem execJsrr_next {s t : State} {base : Reg} {off : BitVec 6} (h : execJsrr base off s = .next t) :
    ∃ v, s.jsrrTarget base off = some v ∧ t = s.link v := by
  unfold execJsrr at h
  split at h
  · cases h
  · cases h; exact ⟨_, ‹_›, rfl⟩

/-- A read depends on memory, the devices, the schedule, the free values and the launch parameters, and carries the
registers along. -/
theorem memRead_setReg (s : State) (a : Word) (r : Reg) (v : Word) :
    (s.setReg r v).memRead a = (s.memRead a).map (fun p => (p.1, p.2.setReg r v)) := by
  have hg : (s.setReg r v).gap = s.gap.setReg r v := by
    rw [gap_eq (s.setReg r v), gap_eq s, gap_dev_congr (s := s.setReg r v) (t := s) rfl rfl rfl]; rfl
  unfold State.memRead
  rw [hg]
  generalize s.gap = s
  unfold State.readNow
  cases deviceAt a with
  | some d =>
    cases d
    case mcr =>
      show Except.ok (if s.dev.mcrWritten then _ else _) = Except.ok
        (((if s.dev.mcrWritten then _ else _) : Word × State).1,
          ((if s.dev.mcrWritten then _ else _) : Word × State).2.setReg r v)
      cases s.dev.mcrWritten <;> rfl
    all_goals rfl
  | none => show (if s.isRam a then _ else _) = _; cases s.isRam a <;> rfl

end Sys2Proof.Machine
end

