-- ==== Sys2Proof/Laws/Service.lean ====
section
/-! SUPPORT. One spec lemma per operation of the service calls of contract mode. -/

namespace Sys2Proof.Machine

/-! ### Waiting, displaying, reading a string -/

theorem setEnv_sameCore (s : State) (env : List (List DeviceEvent)) : SameCore s { s with env := env } :=
  ⟨rfl, rfl, rfl, rfl, rfl⟩

/-- What a wait for the keyboard or the CRT keeps: everything but the devices' own registers; the output and the clock
among what stays. -/
structure WaitKeeps (s t : State) : Prop where
  core : SameCore s t
  out : t.dev.crtOut = s.dev.crtOut
  clock : t.dev.clockEnable = s.dev.clockEnable

theorem WaitKeeps.trans {s t u : State} (h : WaitKeeps s t) (k : WaitKeeps t u) : WaitKeeps s u :=
  ⟨h.core.trans k.core, k.out.trans h.out, k.clock.trans h.clock⟩

theorem setEnv_waitKeeps (s : State) (env : List (List DeviceEvent)) : WaitKeeps s { s with env := env } :=
  ⟨setEnv_sameCore s env, rfl, rfl⟩

theorem idle_waitKeeps (s : State) : WaitKeeps s s.idle := ⟨idle_sameCore s, by simp, by simp⟩

theorem gap_waitKeeps (s : State) : WaitKeeps s s.gap := ⟨gap_sameCore s, gap_crtOut s, gap_clockEnable s⟩

theorem deviceSteps_waitKeeps (es : List DeviceEvent) (s : State) : WaitKeeps s (s.deviceSteps es) :=
  ⟨deviceSteps_sameCore es s, (deviceSteps_out_clock es s).1, (deviceSteps_out_clock es s).2⟩

/-- A wait for the keyboard that ends keeps all but the devices, and ends with a character ready. -/
theorem awaitKeyIn_ok {env : List (List DeviceEvent)} {s t : State} (h : s.awaitKeyIn env = .ok t) :
    WaitKeeps s t ∧ t.dev.kbReady = true := by
  induction env generalizing s with
  | nil =>
    unfold State.awaitKeyIn at h
    split at h
    · cases h; exact ⟨setEnv_waitKeeps s _, ‹_›⟩
    · cases h
  | cons es env ih =>
    unfold State.awaitKeyIn at h
    split at h
    · cases h; exact ⟨setEnv_waitKeeps s _, ‹_›⟩
    · exact ⟨(deviceSteps_waitKeeps es s).trans (ih h).1, (ih h).2⟩

/-- A wait for the CRT that ends keeps all but the devices, and ends with the CRT ready. -/
theorem awaitCrtIn_ok {env : List (List DeviceEvent)} {s t : State} (h : s.awaitCrtIn env = .ok t) :
    WaitKeeps s t ∧ t.dev.crtReady = true := by
  induction env generalizing s with
  | nil =>
    unfold State.awaitCrtIn at h
    split at h
    · cases h; exact ⟨(idle_waitKeeps s).trans (setEnv_waitKeeps _ _), ‹_›⟩
    · cases h
  | cons es env ih =>
    unfold State.awaitCrtIn at h
    split at h
    · cases h; exact ⟨setEnv_waitKeeps s _, ‹_›⟩
    · exact ⟨(deviceSteps_waitKeeps es s).trans (ih h).1, (ih h).2⟩

theorem display_sameCore (s : State) (c : Byte) : SameCore s (s.display c) := ⟨rfl, rfl, rfl, rfl, rfl⟩

/-- A character that is emitted joins the output, and nothing but the devices changes. -/
theorem emitChar_ok {s t : State} {c : Byte} (h : s.emitChar c = .ok t) :
    SameCore s t ∧ t.dev.crtOut = s.dev.crtOut ++ [c] ∧ t.dev.clockEnable = s.dev.clockEnable := by
  unfold State.emitChar at h
  simp only at h
  split at h
  · cases h
  · rename_i u hu
    cases h
    obtain ⟨k, -⟩ := awaitCrtIn_ok hu
    have k := (gap_waitKeeps s).trans k
    exact ⟨k.core.trans (display_sameCore u c), by simp [k.out], by simp [k.clock]⟩

/-- Characters that are emitted join the output in order. -/
theorem emit_ok {cs : List Byte} {s t : State} (h : s.emit cs = .ok t) :
    SameCore s t ∧ t.dev.crtOut = s.dev.crtOut ++ cs ∧ t.dev.clockEnable = s.dev.clockEnable := by
  induction cs generalizing s with
  | nil => unfold State.emit at h; cases h; exact ⟨.rfl, by simp, rfl⟩
  | cons c cs ih =>
    unfold State.emit at h
    split at h
    · cases h
    · rename_i u hu
      obtain ⟨k1, k2, k3⟩ := emitChar_ok hu
      obtain ⟨j1, j2, j3⟩ := ih h
      exact ⟨k1.trans j1, by simp [j2, k2], j3.trans k3⟩

/-- A character taken from the keyboard is the one it holds, and is consumed. -/
theorem takeKey_ok {s t : State} {c : Byte} (h : s.takeKey = .ok (c, t)) :
    SameCore s t ∧ t.dev.crtOut = s.dev.crtOut ∧ t.dev.clockEnable = s.dev.clockEnable ∧
      t.dev.kbReady = false ∧ t.dev.kbChar = c := by
  unfold State.takeKey at h
  simp only at h
  split at h
  · cases h
  · rename_i u hu
    cases h
    have k := (gap_waitKeeps s).trans (awaitKeyIn_ok hu).1
    exact ⟨k.core.trans ⟨rfl, rfl, rfl, rfl, rfl⟩, k.out, k.clock, rfl, rfl⟩

/-- A wait for the keyboard that does not end is a hang. -/
theorem awaitKeyIn_error {env : List (List DeviceEvent)} {s : State} {e : CallStop}
    (h : s.awaitKeyIn env = .error e) : e = .hang := by
  induction env generalizing s with
  | nil => unfold State.awaitKeyIn at h; split at h <;> cases h; rfl
  | cons es env ih =>
    unfold State.awaitKeyIn at h
    split at h
    · cases h
    · exact ih h

/-- A wait for the CRT that does not end is a hang. -/
theorem awaitCrtIn_error {env : List (List DeviceEvent)} {s : State} {e : CallStop}
    (h : s.awaitCrtIn env = .error e) : e = .hang := by
  induction env generalizing s with
  | nil => unfold State.awaitCrtIn at h; split at h <;> cases h; rfl
  | cons es env ih =>
    unfold State.awaitCrtIn at h
    split at h
    · cases h
    · exact ih h

theorem emitChar_error {s : State} {c : Byte} {e : CallStop} (h : s.emitChar c = .error e) : e = .hang := by
  unfold State.emitChar at h
  simp only at h
  split at h
  · cases h; exact awaitCrtIn_error ‹_›
  · cases h

theorem emit_error {cs : List Byte} {s : State} {e : CallStop} (h : s.emit cs = .error e) : e = .hang := by
  induction cs generalizing s with
  | nil => cases h
  | cons c cs ih =>
    unfold State.emit at h
    split at h
    · cases h; exact emitChar_error ‹_›
    · exact ih h

theorem takeKey_error {s : State} {e : CallStop} (h : s.takeKey = .error e) : e = .hang := by
  unfold State.takeKey at h
  simp only at h
  split at h
  · cases h; exact awaitKeyIn_error ‹_›
  · cases h

/-- Reading a string changes nothing but the devices. -/
theorem readString_ok {fuel : Nat} {s t : State} {a : Word} {cs : List Byte} {ended : Bool}
    (h : State.readString fuel s a = .ok (cs, ended, t)) : WaitKeeps s t := by
  induction fuel generalizing s a cs with
  | zero => cases h; exact ⟨.rfl, .refl _, .refl _⟩
  | succ fuel ih =>
    unfold State.readString at h
    split at h
    · cases h
    · rename_i w u hu
      have k : WaitKeeps s u := ⟨memRead_sameCore hu, memRead_crtOut hu, memRead_clockEnable hu⟩
      split at h
      · cases h; exact k
      · split at h
        · cases h
        · rename_i cs' e v hv
          cases h
          exact k.trans (ih hv)

/-- What displaying characters keeps: everything but the devices, where the output has grown and the clock is as it
was. -/
structure Displayed (s t : State) : Prop where
  core : SameCore s t
  out : ∃ cs, t.dev.crtOut = s.dev.crtOut ++ cs
  clock : t.dev.clockEnable = s.dev.clockEnable

theorem Displayed.rfl {s : State} : Displayed s s := ⟨.rfl, ⟨[], by simp⟩, .refl _⟩

/-- Everything the output of the string R0 points to can do, where it ends and where it runs on. -/
theorem emitStringR0_displayed {s t : State} (h : s.emitStringR0 = .ok t ∨ s.emitStringR0 = .error (.runsOn t)) :
    Displayed s t := by
  unfold State.emitStringR0 at h
  split at h
  · simp at h
  · rename_i cs ended u hu
    have k := readString_ok (fuel := 65536) hu
    split at h
    · rename_i e he
      simp [emit_error he] at h
    · rename_i v hv
      obtain ⟨j1, j2, j3⟩ := emit_ok hv
      obtain rfl : v = t := by cases ended <;> simpa using h
      exact ⟨k.core.trans j1, ⟨cs, by rw [j2, k.out]⟩, j3.trans k.clock⟩

/-! ### What the operating system may change -/

/-- What the operating system's effects keep: the PC, the codes, the devices, the schedule, the parameters, R0 and
R7, and the canonical form of memory. -/
structure OsKeeps (s t : State) : Prop where
  pc : t.pc = s.pc
  cc : t.cc = s.cc
  dev : t.dev = s.dev
  env : t.env = s.env
  params : t.params = s.params
  r0 : t.x .r0 = s.x .r0
  r7 : t.x .r7 = s.x .r7
  wf : Memory.wf s.mem = true → Memory.wf t.mem = true

theorem OsKeeps.rfl {s : State} : OsKeeps s s :=
  ⟨.refl _, .refl _, .refl _, .refl _, .refl _, .refl _, .refl _, id⟩

theorem OsKeeps.trans {s t u : State} (h : OsKeeps s t) (k : OsKeeps t u) : OsKeeps s u :=
  ⟨k.pc.trans h.pc, k.cc.trans h.cc, k.dev.trans h.dev, k.env.trans h.env, k.params.trans h.params,
    k.r0.trans h.r0, k.r7.trans h.r7, fun w => k.wf (h.wf w)⟩

theorem freeReg_osKeeps (s : State) {r : Reg} (h0 : r ≠ .r0) (h7 : r ≠ .r7) : OsKeeps s (s.freeReg r) :=
  ⟨rfl, rfl, rfl, rfl, rfl, by rw [State.freeReg_x, if_neg h0.symm], by rw [State.freeReg_x, if_neg h7.symm], id⟩

theorem storesFold_osKeeps (cells : List (Word × Word)) (s : State) :
    OsKeeps s (cells.foldl (fun t c => if t.ordinary c.1 then t.setWord c.1 c.2 else t) s) := by
  induction cells generalizing s with
  | nil => exact .rfl
  | cons c cells ih =>
    refine OsKeeps.trans ?_ (ih _)
    dsimp only
    split
    · exact ⟨rfl, rfl, rfl, rfl, rfl, rfl, rfl, fun w => Memory.wf_write c.1 c.2 w⟩
    · exact .rfl

theorem freeMemory_osKeeps (s : State) : OsKeeps s s.freeMemory :=
  OsKeeps.trans (t := s.afterDraw) ⟨rfl, rfl, rfl, rfl, rfl, rfl, rfl, id⟩ (storesFold_osKeeps _ _)

theorem osEffects_osKeeps (s : State) : OsKeeps s s.osEffects := by
  unfold State.osEffects
  split
  · exact .rfl
  · exact (((((((freeReg_osKeeps s (by decide) (by decide)).trans
      (freeReg_osKeeps _ (by decide) (by decide))).trans (freeReg_osKeeps _ (by decide) (by decide))).trans
      (freeReg_osKeeps _ (by decide) (by decide))).trans (freeReg_osKeeps _ (by decide) (by decide))).trans
      (freeReg_osKeeps _ (by decide) (by decide))).trans (freeMemory_osKeeps _))

theorem osEffects_preserves {s : State} (h : s.params.osPreserves = true) : s.osEffects = s := by
  simp [State.osEffects, h]

/-- Everything the end of a service call does. -/
theorem returnFromCall_spec (s : State) :
    s.returnFromCall.pc = s.pc + 1#16 ∧ s.returnFromCall.x .r7 = s.pc + 1#16 ∧
    s.returnFromCall.x .r0 = s.x .r0 ∧ s.returnFromCall.cc.oneHot = true ∧
    s.returnFromCall.dev = s.dev ∧ s.returnFromCall.env = s.env ∧ s.returnFromCall.params = s.params ∧
    (Memory.wf s.mem = true → Memory.wf s.returnFromCall.mem = true) ∧
    (s.params.osPreserves = true →
      s.returnFromCall.mem = s.mem ∧ ∀ r, r ≠ .r7 → s.returnFromCall.x r = s.x r) := by
  have k := osEffects_osKeeps s
  have hr : ∀ r, s.returnFromCall.x r = if r = .r7 then s.pc + 1#16 else s.osEffects.x r := by
    intro r
    unfold State.returnFromCall
    rw [State.link_x, State.freeCodes_x]
    simp [k.pc]
  refine ⟨rfl, by simp [hr], by simp [hr, k.r0], CC.ofDraw_oneHot _, k.dev, k.env, k.params, k.wf, fun h => ?_⟩
  refine ⟨by simp [State.returnFromCall, osEffects_preserves h], fun r hne => ?_⟩
  rw [hr, if_neg hne, osEffects_preserves h]

/-! ### The calls -/

theorem callGetc_ok {s t : State} (h : s.callGetc = .ok t) :
    ∃ c u, s.takeKey = .ok (c, u) ∧ t = u.returnFromCall.setReg .r0 (c.setWidth 16) := by
  unfold State.callGetc at h
  split at h
  · cases h
  · cases h; exact ⟨_, _, ‹_›, rfl⟩

theorem callOut_ok {s t : State} (h : s.callOut = .ok t) :
    ∃ u, s.emitChar ((s.x .r0).extractLsb' 0 8) = .ok u ∧ t = u.returnFromCall := by
  unfold State.callOut at h
  split at h
  · cases h
  · cases h; exact ⟨_, ‹_›, rfl⟩

theorem callPuts_ok {s t : State} (h : s.callPuts = .ok t) :
    ∃ u, s.emitStringR0 = .ok u ∧ t = u.returnFromCall := by
  unfold State.callPuts at h
  split at h
  · cases h
  · cases h; exact ⟨_, ‹_›, rfl⟩

theorem callIn_ok {s t : State} (h : s.callIn = .ok t) :
    ∃ u c v w, s.emitStringR0 = .ok u ∧ u.takeKey = .ok (c, v) ∧ v.emitChar c = .ok w ∧
      t = w.returnFromCall.setReg .r0 (c.setWidth 16) := by
  unfold State.callIn at h
  split at h
  · cases h
  · split at h
    · cases h
    · split at h
      · cases h
      · cases h; exact ⟨_, _, _, _, ‹_›, ‹_›, ‹_›, rfl⟩

/-- Everything a service call can answer: the state of a call that completes; while it waits, the same state; while
its string runs on, the state after a pass. -/
theorem callOutcome_next {s t : State} {r : Except CallStop State} (h : s.callOutcome r = .next t) :
    r = .ok t ∨ (r = .error .hang ∧ t = s) ∨ r = .error (.runsOn t) := by
  unfold State.callOutcome at h
  split at h
  · cases h; exact .inl rfl
  · cases h; exact .inr (.inl ⟨rfl, rfl⟩)
  · cases h; exact .inr (.inr rfl)
  · cases h

/-- Only the string of PUTS or the prompt of IN runs on, and the state is then the one after its pass. -/
theorem call_runsOn {s t : State} (h : s.callGetc = .error (.runsOn t) ∨ s.callOut = .error (.runsOn t) ∨
    s.callPuts = .error (.runsOn t) ∨ s.callIn = .error (.runsOn t)) : s.emitStringR0 = .error (.runsOn t) := by
  obtain h | h | h | h := h
  · unfold State.callGetc at h
    split at h
    · rename_i e he; simp [takeKey_error he] at h
    · cases h
  · unfold State.callOut at h
    split at h
    · rename_i e he; simp [emitChar_error he] at h
    · cases h
  · unfold State.callPuts at h
    split at h
    · cases h; assumption
    · cases h
  · unfold State.callIn at h
    split at h
    · cases h; assumption
    · split at h
      · rename_i e he; simp [takeKey_error he] at h
      · split at h
        · rename_i e he; simp [emitChar_error he] at h
        · cases h

/-- A service call that completes: it begins with waits and output (`u`), which keep everything but the devices and
only add to the output, and ends with the return and perhaps a value in R0. -/
theorem call_ok {s t : State}
    (h : s.callGetc = .ok t ∨ s.callOut = .ok t ∨ s.callPuts = .ok t ∨ s.callIn = .ok t) :
    ∃ u cs, SameCore s u ∧ u.dev.crtOut = s.dev.crtOut ++ cs ∧ u.dev.clockEnable = s.dev.clockEnable ∧
      (t = u.returnFromCall ∨ ∃ v, t = u.returnFromCall.setReg .r0 v) := by
  obtain h | h | h | h := h
  · obtain ⟨c, u, h1, rfl⟩ := callGetc_ok h
    obtain ⟨k1, k2, k3, -⟩ := takeKey_ok h1
    exact ⟨u, [], k1, by simp [k2], k3, .inr ⟨_, rfl⟩⟩
  · obtain ⟨u, h1, rfl⟩ := callOut_ok h
    obtain ⟨k1, k2, k3⟩ := emitChar_ok h1
    exact ⟨u, _, k1, k2, k3, .inl rfl⟩
  · obtain ⟨u, h1, rfl⟩ := callPuts_ok h
    obtain ⟨k1, ⟨cs, k2⟩, k3⟩ := emitStringR0_displayed (.inl h1)
    exact ⟨u, cs, k1, k2, k3, .inl rfl⟩
  · obtain ⟨u, c, v, w, h1, h2, h3, rfl⟩ := callIn_ok h
    obtain ⟨k1, ⟨cs, k2⟩, k3⟩ := emitStringR0_displayed (.inl h1)
    obtain ⟨j1, j2, j3, -⟩ := takeKey_ok h2
    obtain ⟨i1, i2, i3⟩ := emitChar_ok h3
    exact ⟨w, cs ++ [c], (k1.trans j1).trans i1, by simp [i2, j2, k2], (i3.trans j3).trans k3, .inr ⟨_, rfl⟩⟩

/-- A service call that goes on answers a state in which characters have perhaps been displayed. -/
theorem callOutcome_displayed {s t : State} {r : Except CallStop State}
    (hr : ∀ u, r = .error (.runsOn u) → s.emitStringR0 = .error (.runsOn u)) (h : s.callOutcome r = .next t) :
    r = .ok t ∨ Displayed s t := by
  obtain h | ⟨-, rfl⟩ | h := callOutcome_next h
  · exact .inl h
  · exact .inr .rfl
  · exact .inr (emitStringR0_displayed (.inr (hr t h)))

/-- Everything a service call can do: complete, wait or run on, or halt. -/
theorem serviceCall_next {s t : State} {vec : BitVec 8} (h : s.serviceCall vec = .next t) :
    (s.callGetc = .ok t ∨ s.callOut = .ok t ∨ s.callPuts = .ok t ∨ s.callIn = .ok t) ∨ Displayed s t ∨
      (vec = 0x25#8 ∧ t = s.callHalt) := by
  unfold State.serviceCall at h
  split at h
  · obtain h | h := callOutcome_displayed (fun u k => call_runsOn (.inl k)) h
    · exact .inl (.inl h)
    · exact .inr (.inl h)
  split at h
  · obtain h | h := callOutcome_displayed (fun u k => call_runsOn (.inr (.inl k))) h
    · exact .inl (.inr (.inl h))
    · exact .inr (.inl h)
  split at h
  · obtain h | h := callOutcome_displayed (fun u k => call_runsOn (.inr (.inr (.inl k)))) h
    · exact .inl (.inr (.inr (.inl h)))
    · exact .inr (.inl h)
  split at h
  · obtain h | h := callOutcome_displayed (fun u k => call_runsOn (.inr (.inr (.inr k)))) h
    · exact .inl (.inr (.inr (.inr h)))
    · exact .inr (.inl h)
  split at h
  · cases h; exact .inr (.inr ⟨‹_›, rfl⟩)
  · cases h

end Sys2Proof.Machine
end

