-- ==== Sys2Proof/Laws/Exec.lean ====
section
/-! SUPPORT. What an instruction can do, said once: `exec_next` sorts every next state of exec by the shape of the
instruction's effect, so that a rule of the whole machine is proved shape by shape. -/

namespace Sys2Proof.Machine

theorem memRead_waitKeeps {s t : State} {a v : Word} (h : s.memRead a = .ok (v, t)) : WaitKeeps s t :=
  ⟨memRead_sameCore h, memRead_crtOut h, memRead_clockEnable h⟩

/-- The shapes of an instruction's effect. -/
inductive Effect (i : Instr) (s t : State) : Prop where
  /-- a value written to DR, the codes set from it, after reads of memory (or none) -/
  | result (dr : Reg) (v : Word) (u : State) (setter : codeSetter i = some dr) (plain : isControl i = false)
      (reads : WaitKeeps s u) (eq : t = u.result dr v)
  /-- the PC changed, and nothing else -/
  | jump (v : Word) (control : isControl i = true) (setter : codeSetter i = none) (call : isServiceCall s i = false)
      (store : storeAddr s i = none) (eq : t = s.jumpTo v)
  /-- the return address saved in R7 and the PC changed, after a read of memory (or none) -/
  | link (v : Word) (u : State) (control : isControl i = true) (setter : codeSetter i = none)
      (call : isServiceCall s i = false) (store : storeAddr s i = none) (regs : regsWritten s.params i = [.r7])
      (reads : WaitKeeps s u) (eq : t = u.link v)
  /-- a word stored, after a read of memory (or none) -/
  | store (a v : Word) (u w : State) (plain : isControl i = false) (setter : codeSetter i = none)
      (addr : storeAddr s i = some a) (value : storeValue s i = some v) (reads : WaitKeeps s u)
      (write : u.memWrite a v = .ok w) (eq : t = w.advance)
  /-- RTI: two reads of memory with the stack pointer moved after each, then the PC and the codes loaded -/
  | rti (r : RtiParams) (w1 w2 v1 v2 : Word) (u1 u2 : State) (isRti : i = .rti) (convention : s.params.rti = some r)
      (read1 : WaitKeeps s u1) (read2 : WaitKeeps (u1.setReg r.sp v1) u2)
      (eq : t = (u2.setReg r.sp v2).restore r w1 w2)
  /-- a service call that completes: waits and output, then the return and perhaps a value in R0 -/
  | call (u : State) (cs : List Byte) (call : isServiceCall s i = true) (waits : SameCore s u)
      (out : u.dev.crtOut = s.dev.crtOut ++ cs) (clock : u.dev.clockEnable = s.dev.clockEnable)
      (eq : t = u.returnFromCall ∨ ∃ v, t = u.returnFromCall.setReg .r0 v)
  /-- a service call that waits, or whose string runs on: characters have perhaps been displayed -/
  | waits (call : isServiceCall s i = true) (shown : Displayed s t)
  /-- HALT run as a contract -/
  | halt (call : isServiceCall s i = true) (isHalt : i = .trap 0x25#8) (eq : t = s.callHalt)

theorem loadFrom_effect {i : Instr} {s u t : State} {dr : Reg} {a : Word} (hs : codeSetter i = some dr)
    (hc : isControl i = false) (hu : WaitKeeps s u) (h : u.loadFrom dr a = .next t) : Effect i s t := by
  obtain ⟨v, w, hr, rfl⟩ := loadFrom_next h
  exact .result dr v w hs hc (hu.trans (memRead_waitKeeps hr)) rfl

theorem WaitKeeps.rfl {s : State} : WaitKeeps s s := ⟨.rfl, .refl _, .refl _⟩

theorem storeTo_effect {i : Instr} {s u t : State} {a v : Word} (hc : isControl i = false)
    (hs : codeSetter i = none) (ha : storeAddr s i = some a) (hv : storeValue s i = some v) (hu : WaitKeeps s u)
    (h : u.storeTo a v = .next t) : Effect i s t := by
  obtain ⟨w, hw, rfl⟩ := storeTo_next h
  exact .store a v u w hc hs ha hv hu hw rfl

/-- `ReadsWord` says what a read of memory or of a device register answers. -/
theorem readsWord_memRead {s u : State} {a w : Word} (h : ReadsWord s a w u) : s.memRead a = .ok (w, u) := by
  obtain ⟨h1, rfl, rfl⟩ | ⟨d, hd, h⟩ := h
  · exact memRead_ordinary h1
  · rw [memRead_device hd, h]

theorem execRti_effect {s t : State} (h : execRti s = .next t) : Effect .rti s t := by
  obtain ⟨r, w1, u, w2, v, h0, h1, h2, rfl⟩ := execRti_next h
  obtain ⟨u1, k1, rfl⟩ := pop_ok h1
  obtain ⟨u2, k2, rfl⟩ := pop_ok h2
  exact .rti r w1 w2 _ _ u1 u2 rfl h0 (memRead_waitKeeps k1) (memRead_waitKeeps k2) rfl

theorem execTrap_effect {vec : BitVec 8} {s t : State} (h : execTrap vec s = .next t) : Effect (.trap vec) s t := by
  unfold execTrap at h
  split at h
  · rename_i hm
    obtain ⟨v, u, hr, rfl⟩ := trapEntry_next h
    exact .link v u rfl rfl (by simp [isServiceCall, hm]) rfl (by simp [regsWritten, hm]) (memRead_waitKeeps hr) rfl
  · rename_i hm
    have hc : isServiceCall s (.trap vec) = true := by simp [isServiceCall, hm]
    obtain k | k | ⟨rfl, k⟩ := serviceCall_next h
    · obtain ⟨u, cs, k1, k2, k3, k4⟩ := call_ok k
      exact .call u cs hc k1 k2 k3 k4
    · exact .waits hc k
    · exact .halt hc rfl k

/-- Everything an instruction can do when it answers a next state. -/
theorem exec_next {i : Instr} {s t : State} (h : exec i s = .next t) : Effect i s t := by
  cases i with
  | br n z p po =>
    simp only [exec, execBr, Host.Outcome.next.injEq] at h
    split at h <;> exact .jump _ rfl rfl rfl rfl h.symm
  | addR => cases h; exact .result _ _ s rfl rfl .rfl rfl
  | addI => cases h; exact .result _ _ s rfl rfl .rfl rfl
  | ld => exact loadFrom_effect rfl rfl .rfl h
  | st => exact storeTo_effect rfl rfl rfl rfl .rfl h
  | jmp => cases h; exact .jump _ rfl rfl rfl rfl rfl
  | jsr => cases h; exact .link _ s rfl rfl rfl rfl rfl .rfl rfl
  | andR => cases h; exact .result _ _ s rfl rfl .rfl rfl
  | andI => cases h; exact .result _ _ s rfl rfl .rfl rfl
  | ldr => exact loadFrom_effect rfl rfl .rfl h
  | str => exact storeTo_effect rfl rfl rfl rfl .rfl h
  | rti => exact execRti_effect h
  | notR => cases h; exact .result _ _ s rfl rfl .rfl rfl
  | ldi =>
    obtain ⟨ptr, u, h1, h2⟩ := execLdi_next h
    exact loadFrom_effect rfl rfl (memRead_waitKeeps h1) h2
  | sti =>
    obtain ⟨ptr, u, h1, h2⟩ := execSti_next h
    exact storeTo_effect rfl rfl (by simp [storeAddr, h1, Except.toOption]) rfl (memRead_waitKeeps h1) h2
  | jmpr => cases h; exact .jump _ rfl rfl rfl rfl rfl
  | jsrr =>
    obtain ⟨v, -, rfl⟩ := execJsrr_next h
    exact .link v s rfl rfl rfl rfl rfl .rfl rfl
  | ret => cases h; exact .jump _ rfl rfl rfl rfl rfl
  | lea => cases h; exact .result _ _ s rfl rfl .rfl rfl
  | trap => exact execTrap_effect h

/-- Everything a step can do when it answers a next state: an instruction's effect after the gap before the fetch. -/
theorem step_next {s t : State} (h : step s = .next t) :
    s.dev.clockEnable = true ∧ ∃ w i, s.gap.fetch = .ok w ∧ decode s.params.strictDecode w = .ok i ∧
      exec i s.gap = .next t := by
  unfold step at h
  split at h
  · refine ⟨‹_›, ?_⟩
    unfold runInstruction at h
    split at h
    · cases h
    · split at h
      · cases h
      · rename_i w hw _ i hi
        exact ⟨w, i, hw, by simpa using hi, h⟩
  · cases h

/-- What HALT run as a contract leaves. -/
theorem callHalt_spec (s : State) :
    s.callHalt.dev.crtOut = s.dev.crtOut ++ Config.haltMessage s.draws ∧ s.callHalt.dev.clockEnable = false ∧
    s.callHalt.x .r7 = s.pc + 1#16 ∧ s.callHalt.x .r0 = s.x .r0 ∧ s.callHalt.cc.oneHot = true ∧
    s.callHalt.params = s.params ∧ (Memory.wf s.mem = true → Memory.wf s.callHalt.mem = true) ∧
    (s.params.osPreserves = true → s.callHalt.mem = s.mem ∧ ∀ r, r ≠ .r7 → s.callHalt.x r = s.x r) := by
  have k := returnFromCall_spec s.gap.haltMessage.haltStop
  have hx : ∀ r, s.gap.haltMessage.haltStop.x r = s.x r := fun r => by
    simp [State.haltStop]
  have hp : s.gap.haltMessage.haltStop.pc = s.pc := by simp [State.haltStop]
  have hm : s.gap.haltMessage.haltStop.mem = s.mem := by simp [State.haltStop]
  have hq : s.gap.haltMessage.haltStop.params = s.params := by simp [State.haltStop]
  obtain ⟨-, k2, k3, k4, k5, -, k7, k8, k9⟩ := k
  rw [hp] at k2
  rw [hx] at k3
  rw [hq] at k7 k9
  rw [hm] at k8 k9
  have hd : s.callHalt.dev = s.gap.haltMessage.haltStop.dev := k5
  refine ⟨?_, ?_, k2, k3, k4, k7, k8, fun h => ⟨(k9 h).1, fun r hr => ((k9 h).2 r hr).trans (hx r)⟩⟩
  · rw [hd]; simp [State.haltStop]
  · rw [hd]; simp only [State.haltStop, State.writeMcr_dev]
    rw [BitVec.msb_append]; rfl

end Sys2Proof.Machine
end

