-- ==== Sys2Proof/Laws/Calls.lean ====
section
/-! SUPPORT. When the waits and the string reads of a service call end, and what a returning call leaves. -/

namespace Sys2Proof.Machine

/-- After device steps the keyboard is ready exactly if it was or a key was typed. -/
theorem deviceSteps_kbReady (es : List DeviceEvent) (s : State) :
    (s.deviceSteps es).dev.kbReady = true ↔ s.dev.kbReady = true ∨ ∃ c, DeviceEvent.key c ∈ es := by
  induction es generalizing s with
  | nil => simp [State.deviceSteps]
  | cons e es ih =>
    rw [show s.deviceSteps (e :: es) = (s.deviceStep e).deviceSteps es from rfl, ih]
    cases e <;> simp [State.deviceStep]

/-- After device steps the CRT is ready exactly if it was or became so. -/
theorem deviceSteps_crtReady (es : List DeviceEvent) (s : State) :
    (s.deviceSteps es).dev.crtReady = true ↔ s.dev.crtReady = true ∨ DeviceEvent.crtReady ∈ es := by
  induction es generalizing s with
  | nil => simp [State.deviceSteps]
  | cons e es ih =>
    rw [show s.deviceSteps (e :: es) = (s.deviceStep e).deviceSteps es from rfl, ih]
    cases e <;> simp [State.deviceStep]

/-- The last key typed in device steps is the character then held. -/
theorem deviceSteps_kbChar (es : List DeviceEvent) (s : State) :
    (s.deviceSteps es).dev.kbChar = (lastKey es).getD s.dev.kbChar := by
  induction es generalizing s with
  | nil => rfl
  | cons e es ih =>
    rw [show s.deviceSteps (e :: es) = (s.deviceStep e).deviceSteps es from rfl, ih]
    cases e <;> rfl

/-- A key is typed in a gap exactly when there is a last one. -/
theorem lastKey_isSome (es : List DeviceEvent) : (lastKey es).isSome = true ↔ ∃ c, DeviceEvent.key c ∈ es := by
  induction es with
  | nil => simp [lastKey]
  | cons e es ih => cases e <;> simp [lastKey, ih]

theorem keyComes_gap (s : State) : KeyComes s.gap ↔ KeyComes s := by
  unfold KeyComes
  rw [gap_env]
  unfold State.gap
  split
  · rename_i h; simp [h]
  · rename_i es rest h
    rw [deviceSteps_kbReady, h]; simp [or_assoc]

theorem crtComes_gap (s : State) : CrtComes s.gap ↔ CrtComes s := by
  unfold CrtComes
  rw [gap_env, gap_params]
  unfold State.gap
  split
  · rename_i h; simp [h]
  · rename_i es rest h
    rw [deviceSteps_crtReady, h]; simp [or_assoc]

/-- A CRT that is ready stays so in a gap. -/
theorem gap_crtReady {s : State} (h : s.dev.crtReady = true) : s.gap.dev.crtReady = true := by
  unfold State.gap; split
  · simp [h]
  · exact (deviceSteps_crtReady _ _).2 (.inl h)

/-! ### The waits -/

/-- A wait for the keyboard ends when a key is there or scheduled, with the character that comes first. -/
theorem awaitKeyIn_total {env : List (List DeviceEvent)} {s : State}
    (h : s.dev.kbReady = true ∨ ∃ es ∈ env, ∃ c, DeviceEvent.key c ∈ es) : ∃ t, s.awaitKeyIn env = .ok t ∧
      some t.dev.kbChar = if s.dev.kbReady then some s.dev.kbChar else env.findSome? lastKey := by
  induction env generalizing s with
  | nil => simp at h; exact ⟨_, by simp [State.awaitKeyIn, h]; rfl, by simp [h]⟩
  | cons es env ih =>
    cases hk : s.dev.kbReady with
    | true => exact ⟨_, by simp [State.awaitKeyIn, hk]; rfl, by simp⟩
    | false =>
      simp only [State.awaitKeyIn, hk]
      obtain ⟨t, ht, hc⟩ := ih (s := s.deviceSteps es) (by rw [deviceSteps_kbReady]; simpa [hk] using h)
      refine ⟨t, ht, ?_⟩
      rw [hc, deviceSteps_kbChar]
      cases hl : lastKey es with
      | none =>
        have : ¬∃ c, DeviceEvent.key c ∈ es := by rw [← lastKey_isSome, hl]; simp
        rw [if_neg (by rw [deviceSteps_kbReady]; simp [hk, this])]
        simp [hl]
      | some c =>
        have : ∃ c, DeviceEvent.key c ∈ es := by rw [← lastKey_isSome, hl]; rfl
        rw [if_pos (by rw [deviceSteps_kbReady]; exact .inr this)]
        simp [hl]

/-- A wait for the keyboard hangs when no key is there or scheduled. -/
theorem awaitKeyIn_hang {env : List (List DeviceEvent)} {s : State}
    (h : ¬(s.dev.kbReady = true ∨ ∃ es ∈ env, ∃ c, DeviceEvent.key c ∈ es)) : s.awaitKeyIn env = .error .hang := by
  induction env generalizing s with
  | nil => simp at h; simp [State.awaitKeyIn, h]
  | cons es env ih =>
    have hk : s.dev.kbReady = false := by simp at h; exact h.1
    simp only [State.awaitKeyIn, hk]
    apply ih
    rw [deviceSteps_kbReady]; simpa [hk] using h

/-- A wait for the CRT ends when it is ready, scheduled to be, or bound to be. -/
theorem awaitCrtIn_total {env : List (List DeviceEvent)} {s : State}
    (h : s.dev.crtReady = true ∨ (∃ es ∈ env, DeviceEvent.crtReady ∈ es) ∨ s.params.crtEventuallyReady = true) :
    ∃ t, s.awaitCrtIn env = .ok t := by
  induction env generalizing s with
  | nil =>
    have : s.idle.dev.crtReady = true := by simpa using h
    exact ⟨_, by unfold State.awaitCrtIn; rw [if_pos this]⟩
  | cons es env ih =>
    cases hk : s.dev.crtReady with
    | true => exact ⟨_, by simp [State.awaitCrtIn, hk]; rfl⟩
    | false =>
      simp only [State.awaitCrtIn, hk]
      apply ih
      rw [deviceSteps_crtReady, (deviceSteps_sameCore es s).params]
      simpa [hk, or_assoc] using h

/-- A wait for the CRT hangs when it is not ready, never scheduled to be and not bound to be. -/
theorem awaitCrtIn_hang {env : List (List DeviceEvent)} {s : State}
    (h : ¬(s.dev.crtReady = true ∨ (∃ es ∈ env, DeviceEvent.crtReady ∈ es) ∨ s.params.crtEventuallyReady = true)) :
    s.awaitCrtIn env = .error .hang := by
  induction env generalizing s with
  | nil =>
    have : ¬s.idle.dev.crtReady = true := by simpa using h
    unfold State.awaitCrtIn
    rw [if_neg this]
  | cons es env ih =>
    have hk : s.dev.crtReady = false := by simp at h; exact h.1
    simp only [State.awaitCrtIn, hk]
    apply ih
    rw [deviceSteps_crtReady, (deviceSteps_sameCore es s).params]
    simpa [hk, or_assoc] using h

/-- What a wait for the CRT does to the schedule: it uses at most one gap that makes the CRT ready, and none where the
CRT is ready; what it does to the keyboard is what the gaps it uses do. -/
theorem awaitCrtIn_env {env : List (List DeviceEvent)} {s t : State} (h : s.awaitCrtIn env = .ok t) :
    crtGaps env ≤ crtGaps t.env + 1 ∧ (s.dev.crtReady = true → t.env = env) ∧
      (KeyComes t ↔ s.dev.kbReady = true ∨ ∃ es ∈ env, ∃ c, DeviceEvent.key c ∈ es) := by
  induction env generalizing s with
  | nil =>
    unfold State.awaitCrtIn at h
    split at h
    · cases h; exact ⟨by simp [crtGaps], fun _ => rfl, by simp [KeyComes]⟩
    · cases h
  | cons es env ih =>
    unfold State.awaitCrtIn at h
    split at h
    · cases h; exact ⟨by simp, fun _ => rfl, Iff.rfl⟩
    · rename_i hk
      obtain ⟨k1, k2, k3⟩ := ih h
      refine ⟨?_, fun h => absurd h hk, by rw [k3, deviceSteps_kbReady]; simp [or_assoc]⟩
      by_cases he : DeviceEvent.crtReady ∈ es
      · rw [k2 ((deviceSteps_crtReady es s).2 (.inr he))]
        simp [crtGaps, he]
      · simpa [crtGaps, he] using k1

/-- A wait for the keyboard uses gaps, and the CRT comes after it exactly if it came before. -/
theorem awaitKeyIn_crtComes {env : List (List DeviceEvent)} {s t : State} (h : s.awaitKeyIn env = .ok t) :
    CrtComes t ↔
      s.dev.crtReady = true ∨ (∃ es ∈ env, DeviceEvent.crtReady ∈ es) ∨ s.params.crtEventuallyReady = true := by
  induction env generalizing s with
  | nil =>
    unfold State.awaitKeyIn at h
    split at h
    · cases h; exact Iff.rfl
    · cases h
  | cons es env ih =>
    unfold State.awaitKeyIn at h
    split at h
    · cases h; exact Iff.rfl
    · rw [ih h, deviceSteps_crtReady, (deviceSteps_sameCore es s).params]; simp [or_assoc]

/-! ### One character -/

/-- Where a key comes, one is taken: the one that `keyTaken` says. -/
theorem takeKey_total {s : State} (h : KeyComes s) : ∃ c t, s.takeKey = .ok (c, t) ∧ keyTaken s = some c := by
  obtain ⟨u, hu, hc⟩ := awaitKeyIn_total ((keyComes_gap s).2 h)
  refine ⟨u.dev.kbChar, _, by simp only [State.takeKey, hu]; rfl, ?_⟩
  rw [hc, gap_env]
  unfold keyTaken State.gap
  cases he : s.env with
  | nil => simp [lastKey]
  | cons es rest =>
    simp only [List.headD_cons, List.tail_cons, deviceSteps_kbChar]
    cases hl : lastKey es with
    | none =>
      have hn : ¬∃ c, DeviceEvent.key c ∈ es := by rw [← lastKey_isSome, hl]; simp
      have : ∀ u : State, (u.deviceSteps es).dev.kbReady = u.dev.kbReady := fun u => by
        rw [Bool.eq_iff_iff, deviceSteps_kbReady]; simp [hn]
      simp only [this]
      simp [hl]
    | some c =>
      have hy : ∃ c, DeviceEvent.key c ∈ es := by rw [← lastKey_isSome, hl]; rfl
      have : ∀ u : State, (u.deviceSteps es).dev.kbReady = true := fun u => (deviceSteps_kbReady es u).2 (.inr hy)
      simp only [this]
      simp [hl]

theorem takeKey_hang {s : State} (h : ¬KeyComes s) : s.takeKey = .error .hang := by
  simp only [State.takeKey, awaitKeyIn_hang fun k => h ((keyComes_gap s).1 k)]

/-- The CRT comes after a key has been taken exactly if it came before. -/
theorem takeKey_crtComes {s t : State} {c : Byte} (h : s.takeKey = .ok (c, t)) : CrtComes t ↔ CrtComes s := by
  unfold State.takeKey at h
  simp only at h
  split at h
  · cases h
  · rename_i u hu
    cases h
    exact (awaitKeyIn_crtComes hu).trans (crtComes_gap s)

theorem emitChar_total {s : State} (h : CrtComes s) (c : Byte) : ∃ t, s.emitChar c = .ok t := by
  obtain ⟨u, hu⟩ := awaitCrtIn_total ((crtComes_gap s).2 h)
  exact ⟨_, by simp only [State.emitChar, hu]; rfl⟩

theorem emitChar_hang {s : State} (h : ¬CrtComes s) (c : Byte) : s.emitChar c = .error .hang := by
  simp only [State.emitChar, awaitCrtIn_hang fun k => h ((crtComes_gap s).1 k)]

/-- A key comes after a character has been emitted exactly if one came before. -/
theorem emitChar_keyComes {s t : State} {c : Byte} (h : s.emitChar c = .ok t) : KeyComes t ↔ KeyComes s := by
  unfold State.emitChar at h
  simp only at h
  split at h
  · cases h
  · rename_i u hu
    cases h
    exact (awaitCrtIn_env hu).2.2.trans (keyComes_gap s)

/-! ### Several characters -/

theorem crtGaps_tail (env : List (List DeviceEvent)) : crtGaps env ≤ 1 + crtGaps env.tail := by
  cases env with
  | nil => simp [crtGaps]
  | cons es env =>
    by_cases h : DeviceEvent.crtReady ∈ es
    · simp [crtGaps, h, Nat.add_comm]
    · simp [crtGaps, h]

theorem crtComes_of_crtGaps {s : State} (h : 0 < crtGaps s.env) : CrtComes s := by
  unfold crtGaps at h
  obtain ⟨es, h1, h2⟩ := List.countP_pos_iff.1 h
  exact .inr (.inl ⟨es, h1, by simpa using h2⟩)

/-- A CRT that serves one more character comes, and once that character is emitted it serves the others. -/
theorem crtServes_emitChar {s : State} {n : Nat} (h : CrtServes s 0 (n + 1)) :
    CrtComes s ∧ ∀ c t, s.emitChar c = .ok t → CrtServes t 0 n := by
  have hc : CrtComes s := by
    obtain h | h | h := h
    · exact .inr (.inr h)
    · exact crtComes_of_crtGaps (by simp at h; omega)
    · exact .inl h.1
  refine ⟨hc, fun c t ht => ?_⟩
  have hp := (emitChar_ok ht).1.params
  unfold State.emitChar at ht
  simp only at ht
  split at ht
  · cases ht
  · rename_i u hu
    cases ht
    obtain ⟨k1, k2, -⟩ := awaitCrtIn_env hu
    rw [gap_env] at k1 k2
    have ke : (u.display c).env = u.env := rfl
    obtain h | h | h := h
    · exact .inl (hp ▸ h)
    · refine .inr (.inl ?_)
      rw [ke]
      simp only [List.drop_zero] at h ⊢
      by_cases hr : s.gap.dev.crtReady = true
      · rw [k2 hr]; have := crtGaps_tail s.env; omega
      · have : crtGaps s.env = crtGaps s.env.tail := by
          cases he : s.env with
          | nil => rfl
          | cons es rest =>
            have hn : DeviceEvent.crtReady ∉ es := fun hm => hr (by
              unfold State.gap; rw [he]; exact (deviceSteps_crtReady es _).2 (.inr hm))
            simp [crtGaps, hn]
        omega
    · refine .inr (.inl ?_)
      have hr := gap_crtReady h.1
      have h2 := h.2
      rw [ke, k2 hr]
      simp only [Nat.zero_add, List.drop_one, List.drop_zero] at h2 ⊢
      omega

/-- Where the CRT serves them, characters are emitted, and it serves the rest. -/
theorem emit_total {cs : List Byte} {s : State} {n : Nat} (h : CrtServes s 0 (cs.length + n)) :
    ∃ t, s.emit cs = .ok t ∧ CrtServes t 0 n := by
  induction cs generalizing s with
  | nil => exact ⟨s, rfl, by simpa using h⟩
  | cons c cs ih =>
    rw [List.length_cons, Nat.add_right_comm] at h
    obtain ⟨k1, k2⟩ := crtServes_emitChar h
    obtain ⟨t, ht⟩ := emitChar_total k1 c
    obtain ⟨u, hu, hn⟩ := ih (k2 c t ht)
    exact ⟨u, by simp only [State.emit, ht, hu], hn⟩

/-- Where the CRT never comes, no character is emitted. -/
theorem emit_hang {cs : List Byte} {s : State} (h : ¬CrtComes s) (hne : cs ≠ []) : s.emit cs = .error .hang := by
  cases cs with
  | nil => exact absurd rfl hne
  | cons c cs => simp only [State.emit, emitChar_hang h]

/-- A key comes after characters have been emitted exactly if one came before. -/
theorem emit_keyComes {cs : List Byte} {s t : State} (h : s.emit cs = .ok t) : KeyComes t ↔ KeyComes s := by
  induction cs generalizing s with
  | nil => cases h; exact Iff.rfl
  | cons c cs ih =>
    unfold State.emit at h
    split at h
    · cases h
    · rename_i u hu
      exact (ih h).trans (emitChar_keyComes hu)

/-- Characters are emitted, or the emission hangs: it is never refused. -/
theorem emit_cases (cs : List Byte) (s : State) : (∃ t, s.emit cs = .ok t) ∨ s.emit cs = .error .hang := by
  induction cs generalizing s with
  | nil => exact .inl ⟨s, rfl⟩
  | cons c cs ih =>
    by_cases h : CrtComes s
    · obtain ⟨t, ht⟩ := emitChar_total h c
      simp only [State.emit, ht]; exact ih t
    · exact .inr (emit_hang h (by simp))

/-! ### A keyboard nobody types on -/

/-- The keyboard has kept its ready bit and its character, and still no character will be typed. -/
structure KeyboardKept (s t : State) : Prop where
  ready : t.dev.kbReady = s.dev.kbReady
  char : t.dev.kbChar = s.dev.kbChar
  quiet : NoKeys t

theorem KeyboardKept.trans {s t u : State} (h : KeyboardKept s t) (k : KeyboardKept t u) : KeyboardKept s u :=
  ⟨k.ready.trans h.ready, k.char.trans h.char, k.quiet⟩

theorem deviceSteps_keyboardKept {es : List DeviceEvent} (s : State) (h : ∀ c, DeviceEvent.key c ∉ es) :
    (s.deviceSteps es).dev.kbReady = s.dev.kbReady ∧ (s.deviceSteps es).dev.kbChar = s.dev.kbChar := by
  have hn : lastKey es = none := by
    cases hl : lastKey es with
    | none => rfl
    | some c =>
      obtain ⟨k, hk⟩ := (lastKey_isSome es).1 (by rw [hl]; rfl)
      exact absurd hk (h k)
  refine ⟨?_, by rw [deviceSteps_kbChar, hn]; rfl⟩
  rw [Bool.eq_iff_iff, deviceSteps_kbReady]
  simp [h]

theorem gap_keyboardKept {s : State} (h : NoKeys s) : KeyboardKept s s.gap := by
  have hq : NoKeys s.gap := fun es hm => h es (by rw [gap_env] at hm; exact List.mem_of_mem_tail hm)
  cases he : s.env with
  | nil => exact ⟨by simp [State.gap, he], by simp [State.gap, he], hq⟩
  | cons es rest =>
    obtain ⟨k1, k2⟩ := deviceSteps_keyboardKept { s with env := rest } (h es (by simp [he]))
    exact ⟨by simpa [State.gap, he] using k1, by simpa [State.gap, he] using k2, hq⟩

theorem awaitCrtIn_keyboardKept {env : List (List DeviceEvent)} {s t : State}
    (h : ∀ es ∈ env, ∀ c, DeviceEvent.key c ∉ es) (k : s.awaitCrtIn env = .ok t) : KeyboardKept s t := by
  induction env generalizing s with
  | nil =>
    unfold State.awaitCrtIn at k
    split at k
    · cases k; exact ⟨by simp, by simp, by simp [NoKeys]⟩
    · cases k
  | cons es env ih =>
    unfold State.awaitCrtIn at k
    split at k
    · cases k; exact ⟨rfl, rfl, h⟩
    · obtain ⟨k1, k2⟩ := deviceSteps_keyboardKept s (h es (by simp))
      have j := ih (fun e he => h e (by simp [he])) k
      exact ⟨j.ready.trans k1, j.char.trans k2, j.quiet⟩

theorem emit_keyboardKept {cs : List Byte} {s t : State} (h : NoKeys s) (k : s.emit cs = .ok t) :
    KeyboardKept s t := by
  induction cs generalizing s with
  | nil => cases k; exact ⟨rfl, rfl, h⟩
  | cons c cs ih =>
    unfold State.emit at k
    split at k
    · cases k
    · rename_i u hu
      unfold State.emitChar at hu
      simp only at hu
      split at hu
      · cases hu
      · rename_i v hv
        cases hu
        have j1 := gap_keyboardKept h
        have j2 := awaitCrtIn_keyboardKept j1.quiet hv
        have j3 := ih (s := v.display c) j2.quiet k
        exact j1.trans (j2.trans ⟨j3.ready, j3.char, j3.quiet⟩)

/-- With no character to come, the one waiting is the one taken. -/
theorem keyTaken_of_noKeys {s : State} (h : NoKeys s) {c : Byte} (k : keyTaken s = some c) : c = s.dev.kbChar := by
  have hn : ∀ es ∈ s.env, lastKey es = none := fun es hm => by
    cases hl : lastKey es with
    | none => rfl
    | some c =>
      obtain ⟨x, hx⟩ := (lastKey_isSome es).1 (by rw [hl]; rfl)
      exact absurd hx (h es hm x)
  unfold keyTaken at k
  split at k
  · cases he : s.env with
    | nil => simpa [he, lastKey] using k.symm
    | cons es rest => simpa [he, hn es (by simp [he])] using k.symm
  · rw [List.findSome?_eq_none_iff.2 hn] at k
    cases k

/-! ### Strings -/

/-- Whether words stand in memory depends on memory and `is_ram` alone. -/
theorem holdsWords_congr {s t : State} (h : SameCore s t) {a : Word} {ws : List Word} :
    HoldsWords s a ws → HoldsWords t a ws := by
  induction ws generalizing a with
  | nil => exact id
  | cons w ws ih =>
    simp only [HoldsWords, h.word, h.ordinary]
    exact fun k => ⟨k.1, k.2.1, k.2.2.1, ih k.2.2.2⟩

theorem add_one_add (a : Word) (n : Nat) : a + 1#16 + BitVec.ofNat 16 n = a + BitVec.ofNat 16 (1 + n) := by
  apply BitVec.eq_of_toNat_eq
  simp [BitVec.toNat_add]; omega

/-- A read of memory or of a device register uses one gap, and leaves the CRT as that gap does. -/
theorem readsWord_devices {s u : State} {a w : Word} (h : ReadsWord s a w u) :
    u.env = s.env.tail ∧ u.dev.crtReady = s.gap.dev.crtReady := by
  obtain ⟨-, -, rfl⟩ | ⟨d, -, h⟩ := h
  · exact ⟨gap_env s, rfl⟩
  · obtain rfl : (s.gap.readDevice d).2 = u := congrArg Prod.snd h
    rw [← gap_env]
    cases d
    case mcr => unfold State.readDevice; simp only; split <;> exact ⟨rfl, rfl⟩
    all_goals exact ⟨rfl, rfl⟩

/-- What reading words keeps: everything but the devices; each word takes one gap, and the CRT comes afterwards exactly
if it came before. -/
theorem readsNonzero_spec {ws : List Word} {s t : State} {a : Word} (h : ReadsNonzero s a ws t) :
    SameCore s t ∧ t.env = s.env.drop ws.length ∧ (CrtComes t ↔ CrtComes s) ∧
      (s.dev.crtReady = true → t.dev.crtReady = true) := by
  induction ws generalizing s a with
  | nil => cases h; exact ⟨.rfl, rfl, Iff.rfl, id⟩
  | cons w ws ih =>
    obtain ⟨u, h1, -, h2⟩ := h
    obtain ⟨k1, k2, k3, k4⟩ := ih h2
    obtain ⟨j1, j2⟩ := readsWord_devices h1
    have c := memRead_sameCore (readsWord_memRead h1)
    refine ⟨c.trans k1, by rw [k2, j1]; simp [List.drop_tail], k3.trans ?_, fun k => k4 (j2.trans (gap_crtReady k))⟩
    rw [← crtComes_gap s]
    simp only [CrtComes, j1, j2, c.params, gap_env, gap_params]

/-- The words read, none of them x0000, come first. -/
theorem readString_reads {ws : List Word} {fuel : Nat} {s t : State} {a : Word} (h : ReadsNonzero s a ws t)
    (hf : ws.length ≤ fuel) : State.readString fuel s a =
      match State.readString (fuel - ws.length) t (a + BitVec.ofNat 16 ws.length) with
      | .error e => .error e
      | .ok (cs, ended, u) => .ok (charsOf ws ++ cs, ended, u) := by
  induction ws generalizing fuel s a with
  | nil =>
    cases h
    simp only [List.length_nil, Nat.sub_zero, charsOf, List.map_nil, List.nil_append, BitVec.add_zero]
    cases State.readString fuel t a <;> rfl
  | cons w ws ih =>
    obtain ⟨u, h1, h2, h3⟩ := h
    cases fuel with
    | zero => cases hf
    | succ fuel =>
      have k := ih (fuel := fuel) h3 (by simpa using hf)
      rw [add_one_add, Nat.add_comm 1 ws.length] at k
      simp only [State.readString, readsWord_memRead h1, h2, if_false, k, List.length_cons, Nat.add_sub_add_right]
      cases State.readString (fuel - ws.length) t (a + BitVec.ofNat 16 (ws.length + 1)) <;> rfl

/-- Where memory is populated and no word of it is x0000, as many words are read as one likes, or a device register
reads as x0000 before that. -/
theorem readsNonzero_endless {n : Nat} {s : State} {a : Word}
    (h : ∀ a, deviceAt a = none → s.isRam a = true ∧ s.word a ≠ 0#16) :
    (∃ ws t d u, ws.length < n ∧ ReadsNonzero s a ws t ∧ deviceAt (a + BitVec.ofNat 16 ws.length) = some d ∧
      ReadsWord t (a + BitVec.ofNat 16 ws.length) 0#16 u) ∨
    ∃ ws t, ws.length = n ∧ ReadsNonzero s a ws t := by
  induction n generalizing s a with
  | zero => exact .inr ⟨[], s, rfl, rfl⟩
  | succ n ih =>
    have next : ∀ w u, ReadsWord s a w u → w ≠ 0#16 →
        (∃ ws t d u, ws.length < n + 1 ∧ ReadsNonzero s a ws t ∧
          deviceAt (a + BitVec.ofNat 16 ws.length) = some d ∧
          ReadsWord t (a + BitVec.ofNat 16 ws.length) 0#16 u) ∨
        ∃ ws t, ws.length = n + 1 ∧ ReadsNonzero s a ws t := fun w u hr hw => by
      have k := memRead_sameCore (readsWord_memRead hr)
      have j := ih (s := u) (a := a + 1#16) (fun b hb => by rw [k.isRam, k.word]; exact h b hb)
      simp only [add_one_add] at j
      obtain ⟨ws, t, d, v, j1, j2, j3, j4⟩ | ⟨ws, t, j1, j2⟩ := j
      · rw [Nat.add_comm] at j3 j4
        exact .inl ⟨w :: ws, t, d, v, by simpa using j1, ⟨u, hr, hw, j2⟩, j3, j4⟩
      · exact .inr ⟨w :: ws, t, by simpa using j1, u, hr, hw, j2⟩
    cases hd : deviceAt a with
    | none => exact next _ _ (.inl ⟨ordinary_iff.2 ⟨hd, (h a hd).1⟩, rfl, rfl⟩) (h a hd).2
    | some d =>
      rcases hwu : s.gap.readDevice d with ⟨w, u⟩
      have hr : ReadsWord s a w u := .inr ⟨d, hd, hwu⟩
      by_cases hw : w = 0#16
      · subst hw
        exact .inl ⟨[], s, d, u, Nat.succ_pos n, rfl, by simpa using hd, by simpa using hr⟩
      · exact next w u hr hw

/-- A string whose x0000 stands in a device register, or anywhere else it is read, ends there. -/
theorem stringAt_ended {s t u : State} {a : Word} {ws : List Word} (h : ReadsNonzero s a ws t) (hl : ws.length < 65536)
    (hz : ReadsWord t (a + BitVec.ofNat 16 ws.length) 0#16 u) : s.stringAt a = .ok (charsOf ws, true, u) := by
  obtain ⟨n, hn⟩ : ∃ n, 65536 - ws.length = n + 1 := ⟨65536 - ws.length - 1, by omega⟩
  unfold State.stringAt
  rw [readString_reads h (by omega), hn]
  simp [State.readString, readsWord_memRead hz]

/-- Words that stand in memory are read, one gap for each; the keyboard sees those gaps alone. -/
theorem holdsWords_reads {ws : List Word} {s : State} {a : Word} (h : HoldsWords s a ws) :
    ∃ t, ReadsNonzero s a ws t ∧ (KeyComes t ↔ KeyComes s) ∧ (NoKeys s → KeyboardKept s t) := by
  induction ws generalizing s a with
  | nil => exact ⟨s, rfl, Iff.rfl, fun h => ⟨rfl, rfl, h⟩⟩
  | cons w ws ih =>
    obtain ⟨h1, h2, h3, h4⟩ := h
    obtain ⟨t, k1, k2, k3⟩ := ih (s := s.gap) (holdsWords_congr (gap_sameCore s) h4)
    exact ⟨t, ⟨s.gap, .inl ⟨h1, h2.symm, rfl⟩, h3, k1⟩, k2.trans (keyComes_gap s),
      fun h => (gap_keyboardKept h).trans (k3 (gap_keyboardKept h).quiet)⟩

/-- A string that stands in memory is read, one gap for each of its words and one for the x0000. -/
theorem stringAt_total {s : State} {a : Word} {ws : List Word} (h : HoldsString s a ws) (hl : ws.length < 65536) :
    ∃ t, s.stringAt a = .ok (charsOf ws, true, t) ∧ SameCore s t ∧ t.env = s.env.drop (ws.length + 1) ∧
      (KeyComes t ↔ KeyComes s) ∧ (CrtComes t ↔ CrtComes s) ∧ (NoKeys s → KeyboardKept s t) ∧
      (s.dev.crtReady = true → t.dev.crtReady = true) := by
  obtain ⟨h1, h2, h3⟩ := h
  obtain ⟨t, k1, k3, k7⟩ := holdsWords_reads h1
  obtain ⟨c, k2, k4, k5⟩ := readsNonzero_spec k1
  have hz : ReadsWord t (a + BitVec.ofNat 16 ws.length) 0#16 t.gap :=
    .inl ⟨(c.ordinary _).trans h2, by rw [c.word, h3], rfl⟩
  refine ⟨t.gap, stringAt_ended k1 hl hz, c.trans (gap_sameCore t), ?_, (keyComes_gap t).trans k3,
    (crtComes_gap t).trans k4, fun h => (k7 h).trans (gap_keyboardKept (k7 h).quiet), fun k => ?_⟩
  · rw [gap_env, k2]; simp [List.tail_drop]
  · exact gap_crtReady (k5 k)

/-- A string with no memory for one of its words is refused there. -/
theorem stringAt_refused {s : State} {a : Word} {ws : List Word} (h : HoldsWords s a ws) (hl : ws.length < 65536)
    (hd : deviceAt (a + BitVec.ofNat 16 ws.length) = none)
    (hr : s.isRam (a + BitVec.ofNat 16 ws.length) = false) :
    s.stringAt a = .error (.readUnpopulated (a + BitVec.ofNat 16 ws.length)) := by
  obtain ⟨t, k1, -⟩ := holdsWords_reads h
  obtain ⟨n, hn⟩ : ∃ n, 65536 - ws.length = n + 1 := ⟨65536 - ws.length - 1, by omega⟩
  unfold State.stringAt
  rw [readString_reads k1 (by omega), hn]
  simp [State.readString, State.memRead, State.readNow, hd, (readsNonzero_spec k1).1.isRam, hr]

/-- One pass of a string that has no end: its words are displayed and the call runs on, where the CRT serves them;
where it never comes, the call hangs. -/
theorem emitStringR0_pass {s t : State} {ws : List Word} (h : ReadsNonzero s (s.x .r0) ws t) (hl : ws.length = 65536) :
    (CrtServes s 65536 65536 → ∃ u, s.emitStringR0 = .error (.runsOn u) ∧ SameCore s u ∧
      u.dev.crtOut = s.dev.crtOut ++ charsOf ws) ∧
    (¬CrtComes s → s.emitStringR0 = .error .hang) := by
  have hs : s.stringAt (s.x .r0) = .ok (charsOf ws, false, t) := by
    unfold State.stringAt
    rw [readString_reads h (by omega), hl]
    simp [State.readString]
  have hw := readString_ok (fuel := 65536) hs
  obtain ⟨k1, k2, k3, k4⟩ := readsNonzero_spec h
  have hc : (charsOf ws).length = 65536 := by simpa [charsOf] using hl
  refine ⟨fun hk => ?_, fun hk => ?_⟩
  · have hk : CrtServes t 0 ((charsOf ws).length + 0) := by
      rw [hc]
      unfold CrtServes at hk ⊢
      rw [k1.params, k2, hl]
      simp only [List.drop_drop, Nat.add_zero]
      obtain hk | hk | hk := hk
      · exact .inl hk
      · exact .inr (.inl hk)
      · exact .inr (.inr ⟨k4 hk.1, hk.2⟩)
    obtain ⟨u, hu, -⟩ := emit_total hk
    obtain ⟨j1, j2, -⟩ := emit_ok hu
    exact ⟨u, by simp [State.emitStringR0, hs, hu], k1.trans j1, by rw [j2, hw.out]⟩
  · have hne : charsOf ws ≠ [] := fun e => by rw [e] at hc; cases hc
    simp only [State.emitStringR0, hs, emit_hang (fun k => hk (k3.1 k)) hne]

/-- A string that stands in memory where R0 points is emitted, where the CRT serves its characters. -/
theorem emitStringR0_total {s : State} {ws : List Word} {n : Nat} (h : HoldsString s (s.x .r0) ws)
    (hl : ws.length < 65536) (hk : CrtServes s (ws.length + 1) (ws.length + n)) :
    ∃ t, s.emitStringR0 = .ok t ∧ CrtServes t 0 n ∧ SameCore s t ∧
      t.dev.crtOut = s.dev.crtOut ++ charsOf ws ∧ (KeyComes t ↔ KeyComes s) ∧ (NoKeys s → KeyboardKept s t) := by
  obtain ⟨t, ht, k1, k2, k3, -, k4, k5⟩ := stringAt_total h hl
  have hc : CrtServes t 0 ((charsOf ws).length + n) := by
    unfold CrtServes
    rw [k1.params, k2]
    simp only [charsOf, List.length_map, List.drop_drop, Nat.add_zero]
    obtain hk | hk | hk := hk
    · exact .inl hk
    · exact .inr (.inl hk)
    · exact .inr (.inr ⟨k5 hk.1, hk.2⟩)
  obtain ⟨u, hu, hn⟩ := emit_total hc
  obtain ⟨j1, j2, -⟩ := emit_ok hu
  have kw := readString_ok (fuel := 65536) ht
  refine ⟨u, ?_, hn, k1.trans j1, by rw [j2, kw.out], (emit_keyComes hu).trans k3,
    fun h => (k4 h).trans (emit_keyboardKept (k4 h).quiet hu)⟩
  simp [State.emitStringR0, ht, hu]

/-- What a returning service call leaves, with or without a value in R0. -/
theorem returnFromCall_returned {s u : State} (k : SameCore s u) (v : Word) :
    CallReturned s u.returnFromCall ∧ CallReturned s (u.returnFromCall.setReg .r0 v) := by
  obtain ⟨h1, h2, -, h4, -, -, -, -, h9⟩ := returnFromCall_spec u
  have hw : ∀ a, u.word a = s.word a := fun a => by unfold State.word; rw [k.mem]
  have hx : ∀ r, u.x r = s.x r := fun r => by unfold State.x; rw [k.regs]
  have h1' : u.returnFromCall.pc = s.nextPc := h1.trans (by rw [k.pc]; rfl)
  have h2' : u.returnFromCall.x .r7 = s.nextPc := h2.trans (by rw [k.pc]; rfl)
  have hm : s.params.osPreserves = true → KeepsWords s u.returnFromCall := fun hp a => by
    rw [← hw]; unfold State.word; rw [(h9 (k.params ▸ hp)).1]
  have hr : s.params.osPreserves = true → ∀ r, r ≠ .r7 → u.returnFromCall.x r = s.x r := fun hp r hne => by
    rw [(h9 (k.params ▸ hp)).2 r hne, hx]
  refine ⟨⟨h2', h1', h4, fun hp => ⟨fun r hne => hr hp r (by simp at hne; exact hne.2), hm hp⟩⟩,
    ⟨by rw [State.setReg_x]; simpa using h2', h1', h4,
      fun hp => ⟨fun r hne => ?_, fun a => by rw [← hm hp a]; rfl⟩⟩⟩
  simp at hne
  rw [State.setReg_x, if_neg hne.1]
  exact hr hp r hne.2

end Sys2Proof.Machine
end

