-- ==== Sys2Proof/Laws/PerInstr.lean ====
section
/-! SUPPORT. Statements made per instruction. EncodedOpcode: the word of an instruction carries the opcode of the
instruction's row of the opcode map (spec/30_encoding.md R53). -/

namespace Sys2Proof.Laws.EncodedOpcode

open Sys2Proof

/-- Bits [15:12] of the instruction's word are those of its row's match, and the row is one of the map. -/
def Statement (i : Instr) : Prop :=
  (encode i).toNat / 4096 = i.row.pattern.toNat / 4096 ∧ i.row ∈ opcodeTable

theorem br (n z p : Bool) (po : BitVec 9) : Statement (.br n z p po) :=
  ⟨by
    have := n.toNat_le; have := z.toNat_le; have := p.toNat_le
    simp only [encode, Instr.row, toNat_append_eq]; simp; omega,
    (by decide : (Instr.br false false false 0).row ∈ opcodeTable)⟩

theorem addR (dr sr1 sr2 : Reg) : Statement (.addR dr sr1 sr2) :=
  ⟨by simp only [encode, Instr.row, toNat_append_eq]; simp; omega,
    (by decide : (Instr.addR .r0 .r0 .r0).row ∈ opcodeTable)⟩

theorem addI (dr sr1 : Reg) (imm5 : BitVec 5) : Statement (.addI dr sr1 imm5) :=
  ⟨by simp only [encode, Instr.row, toNat_append_eq]; simp; omega,
    (by decide : (Instr.addI .r0 .r0 0).row ∈ opcodeTable)⟩

theorem ld (dr : Reg) (po : BitVec 9) : Statement (.ld dr po) :=
  ⟨by simp only [encode, Instr.row, toNat_append_eq]; simp; omega,
    (by decide : (Instr.ld .r0 0).row ∈ opcodeTable)⟩

theorem st (sr : Reg) (po : BitVec 9) : Statement (.st sr po) :=
  ⟨by simp only [encode, Instr.row, toNat_append_eq]; simp; omega,
    (by decide : (Instr.st .r0 0).row ∈ opcodeTable)⟩

theorem jmp (po : BitVec 9) : Statement (.jmp po) :=
  ⟨by simp only [encode, Instr.row, toNat_append_eq]; simp; omega,
    (by decide : (Instr.jmp 0).row ∈ opcodeTable)⟩

theorem jsr (po : BitVec 9) : Statement (.jsr po) :=
  ⟨by simp only [encode, Instr.row, toNat_append_eq]; simp; omega,
    (by decide : (Instr.jsr 0).row ∈ opcodeTable)⟩

theorem andR (dr sr1 sr2 : Reg) : Statement (.andR dr sr1 sr2) :=
  ⟨by simp only [encode, Instr.row, toNat_append_eq]; simp; omega,
    (by decide : (Instr.andR .r0 .r0 .r0).row ∈ opcodeTable)⟩

theorem andI (dr sr1 : Reg) (imm5 : BitVec 5) : Statement (.andI dr sr1 imm5) :=
  ⟨by simp only [encode, Instr.row, toNat_append_eq]; simp; omega,
    (by decide : (Instr.andI .r0 .r0 0).row ∈ opcodeTable)⟩

theorem ldr (dr base : Reg) (off : BitVec 6) : Statement (.ldr dr base off) :=
  ⟨by simp only [encode, Instr.row, toNat_append_eq]; simp; omega,
    (by decide : (Instr.ldr .r0 .r0 0).row ∈ opcodeTable)⟩

theorem str (sr base : Reg) (off : BitVec 6) : Statement (.str sr base off) :=
  ⟨by simp only [encode, Instr.row, toNat_append_eq]; simp; omega,
    (by decide : (Instr.str .r0 .r0 0).row ∈ opcodeTable)⟩

theorem rti : Statement .rti :=
  ⟨by simp only [encode, Instr.row, toNat_append_eq]; simp,
    (by decide : Instr.rti.row ∈ opcodeTable)⟩

theorem notR (dr sr : Reg) : Statement (.notR dr sr) :=
  ⟨by simp only [encode, Instr.row, toNat_append_eq]; simp; omega,
    (by decide : (Instr.notR .r0 .r0).row ∈ opcodeTable)⟩

theorem ldi (dr : Reg) (po : BitVec 9) : Statement (.ldi dr po) :=
  ⟨by simp only [encode, Instr.row, toNat_append_eq]; simp; omega,
    (by decide : (Instr.ldi .r0 0).row ∈ opcodeTable)⟩

theorem sti (sr : Reg) (po : BitVec 9) : Statement (.sti sr po) :=
  ⟨by simp only [encode, Instr.row, toNat_append_eq]; simp; omega,
    (by decide : (Instr.sti .r0 0).row ∈ opcodeTable)⟩

theorem jmpr (base : Reg) (off : BitVec 6) : Statement (.jmpr base off) :=
  ⟨by simp only [encode, Instr.row, toNat_append_eq]; simp; omega,
    (by decide : (Instr.jmpr .r0 0).row ∈ opcodeTable)⟩

theorem jsrr (base : Reg) (off : BitVec 6) : Statement (.jsrr base off) :=
  ⟨by simp only [encode, Instr.row, toNat_append_eq]; simp; omega,
    (by decide : (Instr.jsrr .r0 0).row ∈ opcodeTable)⟩

theorem ret : Statement .ret :=
  ⟨by simp only [encode, Instr.row, toNat_append_eq]; simp,
    (by decide : Instr.ret.row ∈ opcodeTable)⟩

theorem lea (dr : Reg) (po : BitVec 9) : Statement (.lea dr po) :=
  ⟨by simp only [encode, Instr.row, toNat_append_eq]; simp; omega,
    (by decide : (Instr.lea .r0 0).row ∈ opcodeTable)⟩

theorem trap (vec : BitVec 8) : Statement (.trap vec) :=
  ⟨by simp only [encode, Instr.row, toNat_append_eq]; simp; omega,
    (by decide : (Instr.trap 0).row ∈ opcodeTable)⟩

end Sys2Proof.Laws.EncodedOpcode
end

