-- ==== Sys2Proof/Tests/Slice0.lean ====
section
/-! SUPPORT. The model's own tests: ill-formed words, decoding of words written out from the spec, one step per
instruction with the values of spec/95_test_vectors.md part 2, and for every obligation with hypotheses a state that
meets them. -/

namespace Sys2Proof.Tests

open Sys2Proof Sys2Proof.Machine

/-! ### Helpers -/

/-- Launch parameters with nothing left open: an RTI stack in R6 that pops upward, and JSRR through the old R7. -/
def params : Params :=
  { Params.default with rti := some ⟨.r6, .plus1, false, true, 2, 1, 0⟩, jsrrR7 := some .old }

/-- A machine at `pc` with the given registers and memory words; the rest as at reset. -/
def machine (pc : Word) (cc : CC) (regs : List (Reg × Word)) (cells : List (Word × Word)) : State :=
  let s := { State.reset with pc := pc, cc := cc, params := params }
  let s := regs.foldl (fun t c => t.setReg c.1 c.2) s
  cells.foldl (fun t c => t.setWord c.1 c.2) s

/-- The next state of an outcome, if it has one. -/
def nextOf : StepOutcome → Option State
  | .next t => some t
  | _ => none

/-- The refusal of an outcome, if it is one. -/
def refusalOf : StepOutcome → Option Refusal
  | .refused r => some r
  | _ => none

/-- The state after one step with the word placed at the program counter. -/
def after (s : State) (w : Nat) : Option State := nextOf (step (s.withFetchWord 16 w))

/-- The refusal of one step with the word placed at the program counter. -/
def refusalAfter (s : State) (w : Nat) : Option Refusal := refusalOf (step (s.withFetchWord 16 w))

/-- N = 1. -/
def neg : CC := ⟨true, false, false⟩
/-- Z = 1. -/
def zero : CC := ⟨false, true, false⟩
/-- P = 1. -/
def pos : CC := ⟨false, false, true⟩

/-- A register, the condition codes and the PC: what most vectors of spec/95_test_vectors.md list. -/
def see (r : Reg) (t : State) : Word × CC × Word := (t.x r, t.cc, t.pc)

/-! ### Words outside the opcode table (R54): one per row of its table -/

theorem test_wellformed_add_fixed : Word.wellFormed 0x1008#16 = false := by decide
theorem test_wellformed_and_fixed : Word.wellFormed 0x5010#16 = false := by decide
theorem test_wellformed_not_fixed : Word.wellFormed 0x98BE#16 = false := by decide
theorem test_wellformed_jump_fixed : Word.wellFormed 0x4200#16 = false := by decide
theorem test_wellformed_jumpr_fixed : Word.wellFormed 0xCC00#16 = false := by decide
theorem test_wellformed_ret_fixed : Word.wellFormed 0xD001#16 = false := by decide
theorem test_wellformed_rti_fixed : Word.wellFormed 0x8800#16 = false := by decide
theorem test_wellformed_trap_fixed : Word.wellFormed 0xF123#16 = false := by decide
theorem test_wellformed_accepts : Word.wellFormed 0x0000#16 = true ∧ Word.wellFormed 0xF0FF#16 = true := by decide

/-- Each is refused by its name; with `strict_decode` false it decodes. -/
theorem test_decode_rejects :
    decode true 0x1008#16 = .error .addFixedBits ∧ decode true 0x5010#16 = .error .andFixedBits ∧
    decode true 0x98BE#16 = .error .notFixedBits ∧ decode true 0x4200#16 = .error .jumpFixedBits ∧
    decode true 0xCC00#16 = .error .jumpRegFixedBits ∧ decode true 0xD001#16 = .error .retFixedBits ∧
    decode true 0x8800#16 = .error .rtiFixedBits ∧ decode true 0xF123#16 = .error .trapFixedBits ∧
    decode false 0x1008#16 = .ok (.addR .r0 .r0 .r0) := ⟨rfl, rfl, rfl, rfl, rfl, rfl, rfl, rfl, rfl⟩

/-! ### Decoding: every form, from words written out bit by bit (spec/95_test_vectors.md part 1; R51) -/

theorem test_decode_operate :
    decode true 0b0001_010_011_0_00_100#16 = .ok (.addR .r2 .r3 .r4) ∧
    decode true 0b0001_010_011_1_00111#16 = .ok (.addI .r2 .r3 7) ∧
    decode true 0b0101_010_011_0_00_100#16 = .ok (.andR .r2 .r3 .r4) ∧
    decode true 0b0101_010_011_1_00111#16 = .ok (.andI .r2 .r3 7) ∧
    decode true 0b1001_100_010_111111#16 = .ok (.notR .r4 .r2) := ⟨rfl, rfl, rfl, rfl, rfl⟩

theorem test_decode_data :
    decode true 0b1110_101_111111101#16 = .ok (.lea .r5 0x1FD) ∧
    decode true 0b0010_101_111111101#16 = .ok (.ld .r5 0x1FD) ∧
    decode true 0b0011_101_111111101#16 = .ok (.st .r5 0x1FD) ∧
    decode true 0b1010_101_111111101#16 = .ok (.ldi .r5 0x1FD) ∧
    decode true 0b1011_101_111111101#16 = .ok (.sti .r5 0x1FD) ∧
    decode true 0b0110_101_111_111101#16 = .ok (.ldr .r5 .r7 61) ∧
    decode true 0b0111_101_111_111101#16 = .ok (.str .r5 .r7 61) := ⟨rfl, rfl, rfl, rfl, rfl, rfl, rfl⟩

theorem test_decode_control :
    decode true 0b0000_0_1_1_111111101#16 = .ok (.br false true true 0x1FD) ∧
    decode true 0b0000_1_0_0_000000001#16 = .ok (.br true false false 1) ∧
    decode true 0b0100_0_00_000010000#16 = .ok (.jmp 0x10) ∧
    decode true 0b0100_1_00_000010000#16 = .ok (.jsr 0x10) ∧
    decode true 0b1100_0_00_010_001010#16 = .ok (.jmpr .r2 10) ∧
    decode true 0b1100_1_00_010_001010#16 = .ok (.jsrr .r2 10) ∧
    decode true 0b1101_000000000000#16 = .ok .ret ∧
    decode true 0b1000_000000000000#16 = .ok .rti ∧
    decode true 0b1111_0000_00100011#16 = .ok (.trap 0x23) := ⟨rfl, rfl, rfl, rfl, rfl, rfl, rfl, rfl, rfl⟩

/-- The encoder writes the same words (spec/95_test_vectors.md 1.2). -/
theorem test_encode :
    encode (.addR .r2 .r3 .r4) = 0x14C4#16 ∧ encode (.andI .r2 .r3 7) = 0x54E7#16 ∧
    encode (.notR .r4 .r2) = 0x98BF#16 ∧ encode (.ldr .r4 .r2 10) = 0x688A#16 ∧
    encode (.br false true true 0x1FD) = 0x07FD#16 ∧ encode (.jsrr .r2 10) = 0xC88A#16 ∧
    encode (.trap 0x25) = 0xF025#16 ∧ encode (.jmp 0x10) = 0x4010#16 ∧ encode (.lea .r5 0x1FD) = 0xEBFD#16 := by
  decide

theorem test_decodeTableWord : decodeTableWord 16 0x98BF = some (.notR .r4 .r2) ∧ decodeTableWord 16 0x98BE = none :=
  ⟨rfl, rfl⟩

/-! ### Operate instructions (spec/95_test_vectors.md 2.1) -/

theorem test_add_overflow :
    (after (machine 0x3000#16 pos [(.r3, 0x7FFF#16), (.r4, 1#16)] []) 0x14C4).map (see .r2) =
      some (0x8000#16, neg, 0x3001#16) := by decide

theorem test_add_in_place :
    (after (machine 0x3000#16 pos [(.r1, 0x4000#16)] []) 0x1241).map (see .r1) =
      some (0x8000#16, neg, 0x3001#16) := by decide

theorem test_addi_minus_one :
    (after (machine 0x3000#16 zero [] []) 0x127F).map (see .r1) = some (0xFFFF#16, neg, 0x3001#16) := by decide

theorem test_addi_least :
    (after (machine 0x3000#16 pos [(.r1, 0x10#16)] []) 0x1270).map (see .r1) = some (0#16, zero, 0x3001#16) := by
  decide

theorem test_and :
    (after (machine 0x3000#16 zero [(.r3, 0xF0F0#16), (.r4, 0x0FF0#16)] []) 0x54C4).map (see .r2) =
      some (0x00F0#16, pos, 0x3001#16) := by decide

theorem test_andi_mask :
    (after (machine 0x3000#16 zero [(.r2, 0x1234#16)] []) 0x52B0).map (see .r1) =
      some (0x1230#16, pos, 0x3001#16) := by decide

theorem test_andi_copy :
    (after (machine 0x3000#16 zero [(.r2, 0x8001#16)] []) 0x52BF).map (see .r1) =
      some (0x8001#16, neg, 0x3001#16) := by decide

theorem test_not :
    (after (machine 0x3000#16 neg [(.r2, 0x8000#16)] []) 0x98BF).map (see .r4) =
      some (0x7FFF#16, pos, 0x3001#16) := by decide

theorem test_not_in_place :
    (after (machine 0x3000#16 pos [(.r1, 0x00F0#16)] []) 0x927F).map (see .r1) =
      some (0xFF0F#16, neg, 0x3001#16) := by decide

/-! ### Data movement instructions (spec/95_test_vectors.md 2.2) -/

theorem test_lea :
    (after (machine 0x4C18#16 zero [] []) 0xEBFD).map (see .r5) = some (0x4DFD#16, pos, 0x4C19#16) := by decide

theorem test_lea_last_word_of_page :
    (after (machine 0x31FF#16 zero [(.r0, 0xFFFF#16)] []) 0xE000).map (see .r0) =
      some (0x3000#16, pos, 0x3200#16) := by decide

theorem test_ld :
    (after (machine 0x4C18#16 zero [] [(0x4DFD#16, 0xAAAA#16)]) 0x2BFD).map (see .r5) =
      some (0xAAAA#16, neg, 0x4C19#16) := by decide

theorem test_ld_own_word :
    (after (machine 0x3000#16 zero [] []) 0x2000).map (see .r0) = some (0x2000#16, pos, 0x3001#16) := by decide

theorem test_st :
    (after (machine 0x4C18#16 zero [(.r5, 0xAAAA#16)] []) 0x3BFD).map
      (fun t => (t.word 0x4DFD#16, t.cc, t.pc)) = some (0xAAAA#16, zero, 0x4C19#16) := by decide

theorem test_ldi :
    (after (machine 0x4C18#16 zero [] [(0x4DFD#16, 0xF0F0#16), (0xF0F0#16, 0xAAAA#16)]) 0xABFD).map (see .r5) =
      some (0xAAAA#16, neg, 0x4C19#16) := by decide

theorem test_ldi_pointer_to_itself :
    (after (machine 0x3000#16 zero [] [(0x3010#16, 0x3010#16)]) 0xA410).map (see .r2) =
      some (0x3010#16, pos, 0x3001#16) := by decide

theorem test_sti :
    (after (machine 0x4C18#16 zero [(.r5, 0xAAAA#16)] [(0x4DFD#16, 0xF0F0#16)]) 0xBBFD).map
      (fun t => (t.word 0xF0F0#16, t.word 0x4DFD#16, t.cc, t.pc)) =
      some (0xAAAA#16, 0xF0F0#16, zero, 0x4C19#16) := by decide

theorem test_sti_stops_the_machine :
    (after (machine 0x300A#16 zero [] [(0x300D#16, 0xF402#16)]) 0xB80D).map
      (fun t => (t.dev.clockEnable, t.pc)) = some (false, 0x300B#16) := by decide

theorem test_ldr :
    (after (machine 0x4C18#16 zero [(.r7, 0xAAAA#16)] [(0xAAE7#16, 0xF0F0#16)]) 0x6BFD).map (see .r5) =
      some (0xF0F0#16, neg, 0x4C19#16) := by decide

theorem test_ldr_wraps :
    (after (machine 0x3000#16 zero [(.r2, 0xFFF0#16)] [(0x002F#16, 7#16)]) 0x62BF).map (see .r1) =
      some (7#16, pos, 0x3001#16) := by decide

theorem test_str_wraps :
    (after (machine 0x3000#16 zero [(.r2, 0xFFC1#16), (.r1, 9#16)] []) 0x72BF).map
      (fun t => (t.word 0#16, t.cc, t.pc)) = some (9#16, zero, 0x3001#16) := by decide

/-- CRTDR takes the low byte alone. -/
theorem test_str_crtdr :
    (after (let s := machine 0x3000#16 zero [(.r2, 0xF3FC#16), (.r0, 0x1241#16)] []
            { s with dev := { s.dev with crtReady := true } }) 0x7083).map (fun t => t.dev.crtOut) =
      some [0x41#8] := by decide

/-! ### Control instructions (spec/95_test_vectors.md 2.3) -/

theorem test_br_not_taken :
    (after (machine 0x4C18#16 neg [] []) 0x07FD).map (·.pc) = some 0x4C19#16 := by decide

theorem test_br_taken :
    (after (machine 0x4C18#16 pos [] []) 0x07FD).map (·.pc) = some 0x4DFD#16 := by decide

theorem test_jmp : (after (machine 0x3000#16 zero [] []) 0x4010).map (see .r7) =
    some (0#16, zero, 0x3010#16) := by decide

theorem test_jsr : (after (machine 0x3000#16 zero [] []) 0x4810).map (see .r7) =
    some (0x3001#16, zero, 0x3010#16) := by decide

theorem test_jsr_wraps : (after (machine 0xFFFF#16 zero [] []) 0x4810).map (see .r7) =
    some (0#16, zero, 0xFE10#16) := by decide

theorem test_jmpr : (after (machine 0x3000#16 zero [(.r2, 0x4000#16)] []) 0xC08A).map (see .r7) =
    some (0#16, zero, 0x400A#16) := by decide

theorem test_jsrr : (after (machine 0x3005#16 zero [(.r2, 0x4000#16)] []) 0xC88A).map (see .r7) =
    some (0x3006#16, zero, 0x400A#16) := by decide

theorem test_ret : (after (machine 0x4000#16 zero [(.r7, 0x3001#16)] []) 0xD000).map (see .r7) =
    some (0x3001#16, zero, 0x3001#16) := by decide

/-- The order of R106's pseudocode, with the parameters named in the helper. -/
theorem test_rti :
    (after (machine 0x4000#16 zero [(.r6, 0x5000#16)] [(0x5000#16, 0x3456#16), (0x5001#16, 4#16)]) 0x8000).map
      (see .r6) = some (0x5002#16, neg, 0x3456#16) := by decide

theorem test_trap : (after (machine 0x3002#16 zero [] [(0x0023#16, 0x04A0#16)]) 0xF023).map (see .r7) =
    some (0x3003#16, zero, 0x04A0#16) := by decide

/-! ### Service calls as contracts (R123 to R128) -/

/-- A machine in contract mode, under `os_preserves`, with a schedule of device events. -/
def caller (r0 : Word) (cells : List (Word × Word)) (kb crt : Bool) (env : List (List DeviceEvent)) : State :=
  let s := machine 0x3000#16 zero [(.r0, r0)] cells
  { s with params := { s.params with trapMode := .contract, osPreserves := true }, env := env,
           dev := { s.dev with kbReady := kb, kbChar := 0x71#8, crtReady := crt } }

theorem test_getc :
    (nextOf (exec (.trap 0x20#8) (caller 0xFFFF#16 [] true false []))).map
      (fun t => (t.x .r0, t.x .r7, t.pc, t.dev.kbReady)) =
      some (0x71#16, 0x3001#16, 0x3001#16, false) := by decide

theorem test_out :
    (nextOf (exec (.trap 0x21#8) (caller 0x1241#16 [] false true []))).map (fun t => (t.dev.crtOut, t.pc)) =
      some ([0x41#8], 0x3001#16) := by decide

theorem test_trap_without_service :
    refusalOf (exec (.trap 0x24#8) (caller 0#16 [] false true [])) = some (.trapNoService 0x24#8) := by decide

/-! ### The assembler (spec/44_assembler.md; spec/95_test_vectors.md 1.5) -/

theorem test_assemble :
    (assemble [".ORIG x3000", "AND R0, R0, #0 ; sum", "LD R1, COUNT", "COUNT .FILL #48",
      "S .STRINGZ \"Hi\"", ".END"]).toOption =
      some [(0x3000#16, 0x5020#16), (0x3001#16, 0x2202#16), (0x3002#16, 0x30#16), (0x3003#16, 0x48#16),
        (0x3004#16, 0x69#16), (0x3005#16, 0#16)] := by decide

/-- The errors the model chose: a label as the value of .FILL (log 41), a lower-case register (log 39: it reads as a
label), a character with no ASCII code (log 43). -/
theorem test_assemble_errors :
    assemble [".ORIG x3000", "A .FILL A"] = .error .badOperands ∧
    assemble [".ORIG x3000", "NOT R1, r2"] = .error .badOperands ∧
    assemble [".ORIG x3000", ".STRINGZ \"é\""] = .error .notAscii := by decide

/-- A page offset written as a number is an error (log 44); a label in front of .ORIG and one in front of .END (log 45);
a text with no .END (log 46). -/
theorem test_assemble_choices :
    assemble [".ORIG x3000", "LEA R5, x1FD"] = .error .badOperands ∧
    assemble ["A .ORIG x3000", "LEA R1, A", "LEA R2, Z", "Z .END", "junk"] =
      .ok [(0x3000#16, 0xE200#16), (0x3001#16, 0xE402#16)] ∧
    assemble [".ORIG x3000", "RET"] = .ok [(0x3000#16, 0xD000#16)] := by decide

/-! ### Witnesses: for every obligation with hypotheses, a state that meets them -/

/-- EncodeAfterDecodeIsIdentity, DecoderAgreesWithOpcodeMap, and the last clause of WordsOutsideTheTable. -/
theorem witness_decode_ok : decode true 0x0000#16 = .ok (.br false false false 0) ∧
    decode true 0xF0FF#16 = .ok (.trap 0xFF) := ⟨rfl, rfl⟩

/-- The conditional clauses of WordsOutsideTheTable: a word of each opcode that has a selecting bit. -/
theorem witness_outside_select :
    fieldOpcode 0x1008#16 = 1#4 ∧ fieldOpcode 0x5010#16 = 5#4 ∧ fieldOpcode 0x4E00#16 = 4#4 ∧
      fieldOpcode 0xC600#16 = 12#4 := by decide

/-- WordsOutsideTheTable: a word outside for each of the rows of R54. -/
theorem witness_outside :
    (outsideTable 0x1008#16 ∧ outsideTable 0x5FD8#16 ∧ outsideTable 0x98BE#16 ∧ outsideTable 0x4E00#16) ∧
    (outsideTable 0xC600#16 ∧ outsideTable 0xDFFF#16 ∧ outsideTable 0x8001#16 ∧ outsideTable 0xFFFF#16) :=
  ⟨⟨by decide, by decide, by decide, by decide⟩, ⟨by decide, by decide, by decide, by decide⟩⟩

theorem witness_step_runs :
    (machine 0x3000#16 zero [] []).dev.clockEnable = true ∧
    (machine 0x3000#16 zero [] []).ordinary 0x3000#16 = true ∧
    decode true ((machine 0x3000#16 zero [] []).word 0x3000#16) = .ok (.br false false false 0) := by
  refine ⟨by decide, by decide, rfl⟩

theorem witness_step_refuses :
    let s := machine 0x3000#16 zero [] [(0x3000#16, 0x1008#16)]
    s.dev.clockEnable = true ∧ s.ordinary s.pc = true ∧ s.params.strictDecode = true ∧ outsideTable (s.word s.pc) := by decide

/-- FetchFromDeviceRefused at each of the five addresses. -/
theorem witness_fetch_device :
    [0xF3FC#16, 0xF3FF#16, 0xF400#16, 0xF401#16, 0xF402#16].all
      (fun a => (refusalOf (step (machine a zero [] []))).isSome) = true := by decide

/-- OnlyAStoppedMachineFaults: a stopped machine. -/
theorem witness_stopped : ∃ s : State, s.dev.clockEnable = false ∧ step s = .fault .clockStopped :=
  ⟨{ State.reset with dev := { State.reset.dev with clockEnable := false } }, rfl, rfl⟩

theorem witness_store_seen :
    let s := machine 0x3000#16 neg [(.r0, 0x5020#16)] []
    s.MemoryCanonical ∧ storeAddr s (.st .r0 1) = some 0x3001#16 ∧ storeValue s (.st .r0 1) = some 0x5020#16 ∧
      s.ordinary 0x3001#16 = true ∧ (nextOf (exec (.st .r0 1) s)).isSome = true := by decide

/-- PageAddressIsOnThePage and LeaResult: both readings of `page_base`, at the last word of a page (R32). -/
theorem witness_page_base :
    let s := machine 0x31FF#16 zero [] []
    s.params.pageBase = .ia ∧ s.pageAddr 0 = 0x3000#16 ∧
    ({ s with params := { s.params with pageBase := .iaPlus1 } } : State).params.pageBase = .iaPlus1 ∧
    ({ s with params := { s.params with pageBase := .iaPlus1 } } : State).pageAddr 0 = 0x3200#16 := by decide

/-- A machine with a range of addresses without memory. -/
def holed (s : State) (lo hi : Word) : State := { s with params := { s.params with unpopulated := [⟨lo, hi⟩] } }

/-- LdResult, StResult: ordinary memory; the device registers CRTSR and CRTDR on the page of the instruction; no
memory. -/
theorem witness_page_access :
    let s := machine 0xF200#16 zero [] []
    s.ordinary (s.pageAddr 0x1FB) = true ∧ s.MemoryCanonical ∧ deviceAt (s.pageAddr 0x1FC) = some .crtsr ∧
    deviceAt (s.pageAddr 0x1FF) = some .crtdr ∧ s.gap.dev.crtReady = false ∧
    ({ s with dev := { s.dev with crtReady := true } } : State).gap.dev.crtReady = true ∧
    deviceAt (s.pageAddr 0x1FE) = none ∧ (holed s 0xF3FE#16 0xF3FE#16).isRam (s.pageAddr 0x1FE) = false := by decide

/-- LdResult, StResult: the device registers KBSR, KBDR and MCR on the page of the instruction. -/
theorem witness_page_access_keyboard :
    let s := machine 0xF403#16 zero [] []
    deviceAt (s.pageAddr 0) = some .kbsr ∧ deviceAt (s.pageAddr 1) = some .kbdr ∧
    deviceAt (s.pageAddr 2) = some .mcr ∧ deviceAt (s.pageAddr 3) = none := by decide

/-- LdrResult, StrResult: every clause, at the ends of the offset and of the address space. -/
theorem witness_base_access :
    let s := machine 0x3000#16 zero [(.r1, 0xFFFF#16), (.r2, 0xF3FC#16), (.r3, 0xF3C0#16)] []
    s.ordinary (s.baseAddr .r1 63) = true ∧ s.MemoryCanonical ∧ deviceAt (s.baseAddr .r2 0) = some .crtsr ∧
    deviceAt (s.baseAddr .r3 63) = some .crtdr ∧ deviceAt (s.baseAddr .r2 4) = some .kbsr ∧
    deviceAt (s.baseAddr .r2 5) = some .kbdr ∧ deviceAt (s.baseAddr .r2 6) = some .mcr ∧
    (holed s 0#16 0x3E#16).isRam (s.baseAddr .r1 63) = false := by decide

/-- LdiResult, StiResult: the pointer in ordinary memory and naming each kind of address; the pointer in a device
register; the pointer where there is no memory. -/
theorem witness_indirect_access :
    let s := machine 0x3000#16 zero [] [(0x3001#16, 0xF3FF#16), (0x3002#16, 0xF402#16)]
    let d := machine 0xF403#16 zero [] []
    s.ordinary (s.pageAddr 1) = true ∧ deviceAt (s.word (s.pageAddr 1)) = some .crtdr ∧
    deviceAt (s.word (s.pageAddr 2)) = some .mcr ∧ s.ordinary (s.word (s.pageAddr 3)) = true ∧
    (holed s 0#16 0#16).ordinary (s.pageAddr 3) = true ∧ (holed s 0#16 0#16).isRam (s.word (s.pageAddr 3)) = false ∧
    deviceAt (d.pageAddr 2) = some .mcr ∧ deviceAt (s.pageAddr 3) = none ∧
    (holed s 0x3003#16 0x3003#16).isRam (s.pageAddr 3) = false := by decide

/-- CrtdrAccess, KbdrAccess, McrAccess: both values of each device bit, and the three values of `kbd_clear_on_read`. -/
theorem witness_devices :
    let s := machine 0x3000#16 zero [] []
    s.gap.dev.crtReady = false ∧ ({ s with env := [[.crtReady]] } : State).gap.dev.crtReady = true ∧
    s.gap.dev.mcrWritten = false ∧ (s.writeMcr 0x8001#16).gap.dev.mcrWritten = true ∧
    s.params.kbdClearOnRead = .draw ∧
    ({ s with params := { s.params with kbdClearOnRead := .always } } : State).params.kbdClearOnRead = .always ∧
    ({ s with params := { s.params with kbdClearOnRead := .never } } : State).params.kbdClearOnRead = .never ∧
    ({ s with env := [[.key 0x41#8]] } : State).gap.dev.kbReady = true := by decide

/-- LastKeyTypedIsHeld: two keys and a CRT event in one gap. -/
theorem witness_last_key :
    let s := { machine 0x3000#16 zero [] [] with env := [[.key 0x41#8, .key 0x42#8, .crtReady]] }
    s.env = ([.key 0x41#8] ++ .key 0x42#8 :: [.crtReady]) :: [] ∧ (∀ e ∈ [DeviceEvent.crtReady], ∀ d, e ≠ .key d) ∧
      s.gap.dev.kbChar = 0x42#8 := by
  refine ⟨rfl, ?_, rfl⟩
  simp

/-- DevicesChangeOnlyTheirRegisters: a gap with a key alone, and one with a CRT event alone. -/
theorem witness_gap_events :
    DeviceEvent.crtReady ∉ [DeviceEvent.key 0x41#8] ∧ (∀ c, DeviceEvent.key c ∉ [DeviceEvent.crtReady]) := by
  constructor <;> simp

/-- BrResult: a selected code set, and none. -/
theorem witness_br :
    ((false = true ∧ neg.n = true) ∨ (true = true ∧ zero.z = true) ∨ (true = true ∧ zero.p = true)) ∧
    ¬((false = true ∧ neg.n = true) ∨ (true = true ∧ neg.z = true) ∨ (true = true ∧ neg.p = true)) := by decide

/-- JsrrResult: another base; R7 as base with the old and with the new value, and with `refuse`. -/
theorem witness_jsrr :
    Reg.r0 ≠ .r7 ∧ params.jsrrR7 = some .old ∧ ({ params with jsrrR7 := some .new } : Params).jsrrR7 = some .new ∧
      ({ params with jsrrR7 := none } : Params).jsrrR7 = none := by decide

/-- R7 as base: the target from the old R7, or from the return address just written, or refused (R104, D7). -/
theorem witness_jsrr_r7 :
    let s := machine 0x3000#16 zero [(.r7, 0x4000#16)] []
    (nextOf (exec (.jsrr .r7 1) s)).map (see .r7) = some (0x3001#16, zero, 0x4001#16) ∧
    (nextOf (exec (.jsrr .r7 1) { s with params := { s.params with jsrrR7 := some .new } })).map (see .r7) =
      some (0x3001#16, zero, 0x3002#16) ∧
    refusalOf (exec (.jsrr .r7 1) { s with params := { s.params with jsrrR7 := none } }) = some .jsrrThroughR7 := by
  decide

/-- RtiResult: both words of the stack in ordinary memory, also where the pointer wraps; both in device registers. -/
theorem witness_rti :
    let s := machine 0x3000#16 zero [(.r6, 0xFFFF#16)] []
    let d := machine 0x3000#16 zero [(.r6, 0xF400#16)] []
    s.params.rti = some ⟨.r6, .plus1, false, true, 2, 1, 0⟩ ∧ ReadsWord s 0xFFFF#16 0#16 s.gap ∧
    ReadsWord s.gap (0xFFFF#16 + 1#16) 0#16 s.gap.gap ∧
    ReadsWord d 0xF400#16 (d.gap.readDevice .kbsr).1 (d.gap.readDevice .kbsr).2 ∧
    ReadsWord d 0xF401#16 (d.gap.readDevice .kbdr).1 (d.gap.readDevice .kbdr).2 :=
  ⟨rfl, .inl ⟨by decide, by decide, rfl⟩, .inl ⟨by decide, by decide, rfl⟩, .inr ⟨.kbsr, rfl, rfl⟩,
    .inr ⟨.kbdr, rfl, rfl⟩⟩

/-- RtiRefusal: no stack convention; no memory for the first word; none for the second, the first read from ordinary
memory and from a device register. -/
theorem witness_rti_refusal :
    let s := machine 0x3000#16 zero [(.r6, 0x5000#16)] []
    let d := machine 0x3000#16 zero [(.r6, 0xF402#16)] []
    (refusalOf (exec .rti { s with params := { s.params with rti := none } }) = some .rtiNoConvention) ∧
    (deviceAt 0x5000#16 = none ∧ (holed s 0x5000#16 0x5000#16).isRam 0x5000#16 = false) ∧
    refusalOf (exec .rti (holed s 0x5000#16 0x5000#16)) = some (.readUnpopulated 0x5000#16) ∧
    refusalOf (exec .rti (holed s 0x5001#16 0x5001#16)) = some (.readUnpopulated 0x5001#16) ∧
    refusalOf (exec .rti (holed d 0xF403#16 0xF403#16)) = some (.readUnpopulated 0xF403#16) := by decide

/-- TrapResult: a populated vector word, and one without memory. -/
theorem witness_trap :
    let s := machine 0x3000#16 zero [] []
    s.params.trapMode = .hardware ∧ s.isRam (vectorAddr 0xFF#8) = true ∧
    (holed s 0xFF#16 0xFF#16).isRam (vectorAddr 0xFF#8) = false ∧ s.isRam (vectorAddr 0#8) = true := by decide

/-- No character is waiting here, and none will be typed. -/
theorem not_keyComes {r0 : Word} {cells : List (Word × Word)} {crt : Bool} :
    ¬KeyComes (caller r0 cells false crt [[.crtReady]]) := by
  rintro (h | ⟨es, h, c, k⟩)
  · cases h
  · obtain rfl : es = [.crtReady] := List.mem_singleton.1 h
    simp at k

/-- A CRT that is not ready, is not made ready by the schedule and is not bound to be. -/
theorem not_crtComes {s : State} (h1 : s.dev.crtReady = false) (h2 : s.env = [[.key 0x41#8]])
    (h3 : s.params.crtEventuallyReady = false) : ¬CrtComes s := by
  simp [CrtComes, h1, h2, h3]

/-- GetcContract: a character waiting, one that will be typed, and none that will; no key event. -/
theorem witness_getc :
    (caller 0#16 [] false false []).params.trapMode = .contract ∧ KeyComes (caller 0#16 [] true false []) ∧
    NoKeys (caller 0#16 [] true false []) ∧ KeyComes (caller 0#16 [] false false [[], [.key 0x41#8]]) ∧
    ¬KeyComes (caller 0#16 [] false false [[.crtReady]]) :=
  ⟨rfl, .inl rfl, fun es h => by simp [caller] at h,
    .inr ⟨[.key 0x41#8], by simp [caller], 0x41#8, by simp⟩, not_keyComes⟩

/-- The character taken: the one waiting; the last one of the first gap with a key; the one that replaces the one
waiting (R166). -/
theorem test_keyTaken :
    keyTaken (caller 0#16 [] true false []) = some 0x71#8 ∧
    keyTaken (caller 0#16 [] false false [[.crtReady], [.key 0x41#8, .key 0x42#8], [.key 0x43#8]]) = some 0x42#8 ∧
    keyTaken (caller 0#16 [] true false [[.key 0x44#8]]) = some 0x44#8 := by decide

/-- OutContract: a CRT that is ready, one that becomes so, one bound to, and one that never does. -/
theorem witness_out :
    let s := caller 0#16 [] false false []
    CrtComes (caller 0#16 [] false true []) ∧ CrtComes (caller 0#16 [] false false [[], [.crtReady]]) ∧
    CrtComes { s with params := { s.params with crtEventuallyReady := true } } ∧
    ¬CrtComes (caller 0#16 [] false false [[.key 0x41#8]]) :=
  ⟨.inl rfl, .inr (.inl ⟨_, .tail _ (.head _), .head _⟩), .inr (.inr rfl), not_crtComes rfl rfl rfl⟩

/-- PutsContract and InContract: a string of one character and a CRT that serves it and the echo, by the schedule, by
being ready, and by `crt_eventually_ready`; a character waiting; the empty string; a CRT that never is ready. -/
theorem witness_puts :
    let s := caller 0x4000#16 [(0x4000#16, 0x48#16)] true false (List.replicate 4 [.crtReady])
    let e := caller 0x4000#16 [] true true []
    let w := caller 0x4000#16 [(0x4000#16, 0x48#16)] true false [[.key 0x41#8]]
    (s.params.trapMode = .contract ∧ HoldsString s (s.x .r0) [0x48#16] ∧ [0x48#16].length < 65536 ∧
      CrtServes s 2 1 ∧ CrtServes s 2 2 ∧ KeyComes s ∧ NoKeys s) ∧
    (HoldsString e (e.x .r0) [] ∧ CrtServes e 1 1 ∧
      CrtServes { e with params := { e.params with crtEventuallyReady := true } } 5 100) ∧
    HoldsString w (w.x .r0) [0x48#16] ∧ [0x48#16] ≠ [] ∧ ¬CrtComes w := by
  refine ⟨⟨rfl, ?_, by decide, .inr (.inl (by decide)), .inr (.inl (by decide)), .inl rfl, ?_⟩,
    ⟨?_, .inr (.inr (by decide)), .inl rfl⟩, ?_, by simp, not_crtComes rfl rfl rfl⟩
  · unfold HoldsString HoldsWords HoldsWords; decide
  · intro es h c k
    obtain rfl := List.eq_of_mem_replicate h
    simp at k
  · unfold HoldsString HoldsWords; decide
  · unfold HoldsString HoldsWords HoldsWords; decide

/-- The first clause of StringStops: no memory for the second word of a string, and none for its first. -/
theorem witness_string_hole :
    let s := holed (caller 0x4000#16 [(0x4000#16, 0x48#16)] true false []) 0x4001#16 0x4001#16
    let f := holed (caller 0#16 [] true false []) 0#16 0#16
    (HoldsWords s (s.x .r0) [0x48#16] ∧ [0x48#16].length < 65536 ∧ deviceAt (0x4000#16 + 1#16) = none ∧
      s.isRam (s.x .r0 + BitVec.ofNat 16 1) = false) ∧
    HoldsWords f (f.x .r0) [] ∧ f.isRam (f.x .r0) = false := by
  refine ⟨⟨?_, by decide, by decide, by decide⟩, trivial, by decide⟩
  unfold HoldsWords HoldsWords; decide

/-- `n` cells from `lo` on, each holding x0001. -/
def ones : Nat → Nat → Memory
  | 0, _ => []
  | n + 1, lo => (lo, 1#16) :: ones n (lo + 1)

theorem ones_read {n lo a : Nat} (h : lo ≤ a) (k : a < lo + n) : Memory.read (ones n lo) a = 1#16 := by
  induction n generalizing lo with
  | zero => omega
  | succ n ih =>
    unfold ones Memory.read
    rw [if_neg (by omega)]
    by_cases e : a = lo
    · rw [if_pos e]
    · rw [if_neg e]; exact ih (by omega) (by omega)

/-- The second clause of StringStops: a memory with no word x0000 in it, with a CRT that serves every pass, and with one
that never is ready. -/
theorem witness_string_endless :
    let s := { caller 0#16 [] true true [] with mem := ones 65536 0 }
    let w := { caller 0#16 [] true false [[.key 0x41#8]] with mem := ones 65536 0 }
    (∀ a, deviceAt a = none → s.isRam a = true ∧ s.word a ≠ 0#16) ∧
    (∀ a, deviceAt a = none → w.isRam a = true ∧ w.word a ≠ 0#16) ∧
    CrtServes { s with params := { s.params with crtEventuallyReady := true } } 65536 65536 ∧ ¬CrtComes w := by
  intro s w
  have hm : ∀ a : Word, Memory.read (ones 65536 0) a.toNat ≠ 0#16 := fun a => by
    rw [ones_read (Nat.zero_le _) (by omega)]; decide
  exact ⟨fun a _ => ⟨rfl, hm a⟩, fun a _ => ⟨rfl, hm a⟩, .inl rfl, not_crtComes rfl rfl rfl⟩

/-- A string is read up to its x0000, and one that has not ended among the words looked at runs on (R125). -/
theorem test_readString :
    let s := caller 0x4000#16 [(0x4000#16, 0x48#16), (0x4001#16, 0x169#16)] false true []
    (State.readString 3 s 0x4000#16).toOption.map (fun p => (p.1, p.2.1)) = some ([0x48#8, 0x69#8], true) ∧
    (State.readString 2 s 0x4000#16).toOption.map (fun p => (p.1, p.2.1)) = some ([0x48#8, 0x69#8], false) := by decide

/-- A call whose string runs on stands where it stood, with the pass displayed; one that waits answers its own state. -/
theorem test_callOutcome (s t : State) :
    s.callOutcome (.error (.runsOn t)) = .next t ∧ s.callOutcome (.error .hang) = .next s := ⟨rfl, rfl⟩

/-- PUTS displays that string, and IN that prompt and the echo. -/
theorem witness_puts_output :
    let s := caller 0x4000#16 [(0x4000#16, 0x48#16)] true false (List.replicate 4 [.crtReady])
    (nextOf (exec (.trap 0x22#8) s)).map (·.dev.crtOut) = some [0x48#8] ∧
    (nextOf (exec (.trap 0x23#8) s)).map (fun t => (t.dev.crtOut, t.x .r0)) = some ([0x48#8, 0x71#8], 0x71#16) := by
  decide

/-- HaltContract with and without `os_preserves`; OtherVectorsHaveNoService at the ends of each range of vectors. -/
theorem witness_contract_mode :
    (caller 0#16 [] false false []).params.trapMode = .contract ∧
    (caller 0#16 [] false false []).params.osPreserves = true ∧
    ∀ v ∈ [0x00#8, 0x1F#8, 0x24#8, 0x26#8, 0xFF#8], v.toNat ∉ [0x20, 0x21, 0x22, 0x23, 0x25] := by decide

/-- MemoryStaysCanonical and OutputOnlyGrows: a step from a canonical memory that answers a next state. -/
theorem witness_step_next :
    (machine 0x3000#16 zero [] [(0x3000#16, 0x3001#16)]).MemoryCanonical ∧
    ∃ t, step (machine 0x3000#16 zero [] [(0x3000#16, 0x3001#16)]) = .next t := ⟨by decide, _, rfl⟩

/-- CodesStayOneHot, OnlyTheSevenSetCodes, OnlyNamedRegistersWritten, OnlyTheStoredWordChanges: an instruction that
sets the codes, one that stores, one that does neither. -/
theorem witness_exec_next :
    let s := machine 0x3000#16 zero [] []
    s.OneHot ∧ s.MemoryCanonical ∧ codeSetter (.notR .r1 .r2) = some .r1 ∧ codeSetter (.st .r1 0) = none ∧
    isServiceCall s (.st .r1 0) = false ∧ storeAddr s (.st .r1 0x1FF) = some 0x31FF#16 ∧
    storeAddr s (.notR .r1 .r2) = none ∧
    (∃ t, exec (.notR .r1 .r2) s = .next t) ∧ (∃ t, exec (.st .r1 0x1FF) s = .next t) :=
  ⟨rfl, rfl, rfl, rfl, rfl, by decide, rfl, ⟨_, rfl⟩, ⟨_, rfl⟩⟩

/-- OnlyBranchReadsCodes: an instruction that is no BR. -/
theorem witness_not_br : ∀ n z p po, Instr.ret ≠ .br n z p po := by simp

/-- OnlyMcrStoreStopsTheMachine: a store that stops it, and HALT. -/
theorem witness_stop :
    let s := machine 0xF403#16 zero [] []
    s.dev.clockEnable = true ∧ (∃ t, exec (.st .r0 2) s = .next t ∧ t.dev.clockEnable = false) ∧
    (∃ t, exec (.trap 0x25#8) (caller 0#16 [] false false []) = .next t ∧ t.dev.clockEnable = false) :=
  ⟨rfl, ⟨_, rfl, by decide⟩, ⟨_, rfl, (callHalt_spec _).2.1⟩⟩

/-- LabelOnThePageIsReached: a label on the instruction's page, one on the next page, and one of no line; two of the
forms; a machine whose page bits are those of the instruction. -/
theorem witness_label :
    let syms : Symbols := [("here", 0x31FF#16), ("there", 0x3200#16)]
    (syms.lookup "here" = some 0x31FF#16 ∧ (0x31FF#16).toNat / 512 = (0x3000#16).toNat / 512 ∧
      syms.lookup "there" = some 0x3200#16 ∧ (0x3200#16).toNat / 512 ≠ (0x3000#16).toNat / 512 ∧
      syms.lookup "nowhere" = none) ∧
    (("LEA", [.reg .r1, .label "here"], .lea .r1) ∈ labelForms .r1 "here" ∧
      ("BRnzp", [.label "here"], .br true true true) ∈ labelForms .r1 "here") ∧
    (machine 0x3000#16 zero [] []).params.pageBase = .ia :=
  ⟨by decide, ⟨by simp [labelForms], by simp [labelForms]⟩, rfl⟩

/-- Each mnemonic with a label operand on the page, as R142, R143 give it; and a label off the page. -/
theorem test_label :
    let syms : Symbols := [("L", 0x3010#16)]
    ((labelForms .r2 "L").map fun f => (assembleInstr syms 0x3000#16 f.1 f.2.1).toOption.map encode) =
      [0xE410, 0x2410, 0x3410, 0xA410, 0xB410, 0x4010, 0x4810, 0x0E10, 0x0810, 0x0410, 0x0210, 0x0C10, 0x0A10,
        0x0610, 0x0E10].map (fun n => some (BitVec.ofNat 16 n)) ∧
    ((labelForms .r2 "L").all fun f => (assembleInstr syms 0x3200#16 f.1 f.2.1).toOption.isNone) = true := by decide

/-- NumericOperandRanges: both ends of each range, the numbers next to them, and a form of each field. -/
theorem witness_ranges :
    (fieldIn (-16) 15 5 (-16)).toOption = some 0x10#5 ∧ (fieldIn (-16) 15 5 15).toOption = some 15#5 ∧
    (fieldIn (-16) 15 5 (-17)).toOption = none ∧ (fieldIn (-16) 15 5 16).toOption = none ∧
    (fieldIn 0 63 6 63).toOption = some 63#6 ∧ (fieldIn 0 63 6 (-1)).toOption = none ∧
    (fieldIn 0 63 6 64).toOption = none ∧ (fieldIn 0 255 8 255).toOption = some 255#8 ∧
    (fieldIn 0 255 8 256).toOption = none ∧ (imm5Forms .r1 .r2 0).length = 2 ∧ (offset6Forms .r1 .r2 0).length = 4 := by
  decide

/-! ### Reset and the host's questions -/

/-- The launch defaults of spec/92_eei_decisions.md section 1: RTI, and JSRR through R7, are refused; JSRR through
another register is not. -/
theorem test_reset_refusals :
    refusalAfter State.reset 0x8000 = some .rtiNoConvention ∧ refusalAfter State.reset 0xC9C1 = some .jsrrThroughR7 ∧
      (after State.reset 0xC801).map (see .r7) = some (0x3001#16, zero, 0x0001#16) := by decide

/-- A step runs the word placed at the program counter, from the reset state. -/
theorem test_withFetchWord :
    (nextOf (step (State.reset.withFetchWord 16 0x127F))).map (see .r1) = some (0xFFFF#16, neg, 0x3001#16) := by decide

end Sys2Proof.Tests
end

section
/-! PROOFS. The opcode map against the strict decoder (spec/30_encoding.md R53, R54, R57). A row of the map is read as
the fields of the word it fixes. These are what the decoder looks at: the opcode, the bit that selects the form, and
the bits it rejects a word for. -/

namespace Sys2Proof

/-! ### A row of the opcode map as fields -/

/-- A run of neighbouring bits of a word: its lowest bit and its width. -/
abbrev BitField := Nat × Nat

/-- The field has the bit. -/
def BitField.hasBit (f : BitField) (k : Nat) : Bool := f.1 ≤ k && k < f.1 + f.2

/-- The two words have the same bits in the field. -/
def BitField.Agree (f : BitField) (w v : Word) : Prop := w.extractLsb' f.1 f.2 = v.extractLsb' f.1 f.2

/-- The fields of R51 that the row of the form fixes: the opcode, then the select bit and the fixed bits, if any. -/
def Instr.fixedFields : Instr → List BitField
  | .addR _ _ _ | .andR _ _ _ => [(12, 4), (5, 1), (3, 2)]
  | .addI _ _ _ | .andI _ _ _ => [(12, 4), (5, 1)]
  | .jmp _ | .jsr _ | .jmpr _ _ | .jsrr _ _ => [(12, 4), (11, 1), (9, 2)]
  | .rti | .ret => [(12, 4), (0, 12)]
  | .notR _ _ => [(12, 4), (0, 6)]
  | .trap _ => [(12, 4), (8, 4)]
  | .br _ _ _ _ | .ld _ _ | .st _ _ | .ldr _ _ _ | .str _ _ _ | .ldi _ _ | .sti _ _ | .lea _ _ => [(12, 4)]

/-- The mask of a row has a one at each bit of the fixed fields and at no other. -/
theorem Instr.mask_getLsbD (i : Instr) : ∀ k < 16, i.row.mask.getLsbD k = i.fixedFields.any (·.hasBit k) := by
  cases i <;> simp only [Instr.row, Instr.fixedFields] <;> decide

/-- No row asks for a bit its mask clears. -/
theorem Instr.pattern_and_mask (i : Instr) : i.row.pattern &&& i.row.mask = i.row.pattern := by
  cases i <;> simp only [Instr.row] <;> decide

theorem BitField.agree_iff_bits (f : BitField) (w v : Word) :
    f.Agree w v ↔ ∀ k < 16, f.hasBit k = true → w.getLsbD k = v.getLsbD k := by
  obtain ⟨lo, n⟩ := f
  simp only [Agree, hasBit, Bool.and_eq_true, decide_eq_true_eq, BitVec.eq_of_getLsbD_eq_iff,
    BitVec.getLsbD_extractLsb']
  constructor
  · intro h k _ hk
    have hbit := h (k - lo) (by omega)
    rw [Nat.add_sub_cancel' hk.1] at hbit
    simpa [show k - lo < n by omega] using hbit
  · intro h j hj
    by_cases hlt : lo + j < 16
    · rw [h (lo + j) hlt (by omega)]
    · simp [BitVec.getLsbD_of_ge _ _ (Nat.le_of_not_lt hlt)]

theorem and_eq_and_iff_bits (w v m : Word) :
    w &&& m = v &&& m ↔ ∀ k < 16, m.getLsbD k = true → w.getLsbD k = v.getLsbD k := by
  simp only [BitVec.eq_of_getLsbD_eq_iff, BitVec.getLsbD_and]
  refine forall₂_congr fun k _ => ?_
  cases m.getLsbD k <;> simp

/-- A word is of a form when it has the pattern's bits in each field the form fixes (R53). -/
theorem Instr.row_covers_iff (i : Instr) (w : Word) :
    i.row.covers w = true ↔ ∀ f ∈ i.fixedFields, f.Agree w i.row.pattern := by
  calc i.row.covers w = true
    _ ↔ w &&& i.row.mask = i.row.pattern &&& i.row.mask := by rw [pattern_and_mask, OpcodeRow.covers, beq_iff_eq]
    _ ↔ ∀ k < 16, i.row.mask.getLsbD k = true → w.getLsbD k = i.row.pattern.getLsbD k := and_eq_and_iff_bits _ _ _
    _ ↔ ∀ k < 16, ∀ f ∈ i.fixedFields, f.hasBit k = true → w.getLsbD k = i.row.pattern.getLsbD k := by
      refine forall₂_congr fun k hk => ?_
      rw [i.mask_getLsbD k hk, List.any_eq_true, forall_exists_index]
      exact forall_congr' fun _ => and_imp
    _ ↔ ∀ f ∈ i.fixedFields, f.Agree w i.row.pattern := by
      simp only [BitField.agree_iff_bits]
      exact ⟨fun h f hf k hk => h k hk f hf, fun h k hk f hf => h f hf k hk⟩

/-- The opcode map has the row of each form, and no other. -/
theorem mem_opcodeTable_iff (r : OpcodeRow) : r ∈ opcodeTable ↔ ∃ i : Instr, i.row = r := by
  constructor
  · intro h
    obtain ⟨i, -, hi⟩ := List.mem_map.1 h
    exact ⟨i, hi⟩
  · rintro ⟨i, rfl⟩
    cases i <;> simp [opcodeTable, Instr.forms, Instr.row]

/-! ### The strict decoder -/

theorem decode_true_eq_ok_iff (w : Word) (i : Instr) :
    decode true w = .ok i ↔ fixedBitsViolated w = none ∧ decodeLoose w = i := by
  unfold decode
  cases fixedBitsViolated w <;> simp

theorem getLsbD_eq_extractLsb'_one (w : Word) (k : Nat) : w.getLsbD k = (w.extractLsb' k 1 == 1#1) := by
  rw [Bool.eq_iff_iff, beq_iff_eq, BitVec.eq_of_getLsbD_eq_iff]
  simp

/-- The bit that selects the immediate form (R50), as a field of one bit. -/
theorem fieldImmBit_eq (w : Word) : fieldImmBit w = (w.extractLsb' 5 1 == 1#1) := getLsbD_eq_extractLsb'_one w 5

/-- The bit that selects the subroutine form (R50), as a field of one bit. -/
theorem fieldL_eq (w : Word) : fieldL w = (w.extractLsb' 11 1 == 1#1) := getLsbD_eq_extractLsb'_one w 11

/-- A word some row covers passes the strict decoder's test of the fixed bits and is read as that row's form: the
fields the row fixes decide every branch of both. -/
theorem decodeLoose_row_of_covers {i : Instr} {w : Word} (h : i.row.covers w = true) :
    fixedBitsViolated w = none ∧ (decodeLoose w).row = i.row := by
  rw [Instr.row_covers_iff] at h
  cases i <;>
    simp_all [Instr.fixedFields, Instr.row, BitField.Agree, fieldOpcode, fieldImmBit_eq, fieldL_eq,
      fixedBitsViolated, decodeLoose]

/-- A word that passes the test of the fixed bits is covered by the row of the form it is read as. The opcode alone
tells the form, but for ADD and AND (bit [5]) and the jumps (bit [11]). -/
theorem decodeLoose_row_covers {w : Word} (h : fixedBitsViolated w = none) : (decodeLoose w).row.covers w = true := by
  rw [Instr.row_covers_iff]
  have hop : w.extractLsb' 12 4 = BitVec.ofNat 4 (fieldOpcode w).toNat := by
    rw [BitVec.ofNat_toNat, BitVec.setWidth_eq, fieldOpcode]
  by_cases himm : (fieldOpcode w).toNat = 1 ∨ (fieldOpcode w).toNat = 5
  · have hbit := BitVec.eq_zero_or_eq_one (w.extractLsb' 5 1)
    rcases himm with hk | hk <;> rw [hk] at hop <;> rcases hbit with hbit | hbit <;>
      simp_all [Instr.fixedFields, Instr.row, BitField.Agree, fieldImmBit_eq, fixedBitsViolated, decodeLoose]
  by_cases hl : (fieldOpcode w).toNat = 4 ∨ (fieldOpcode w).toNat = 12
  · have hbit := BitVec.eq_zero_or_eq_one (w.extractLsb' 11 1)
    rcases hl with hk | hk <;> rw [hk] at hop <;> rcases hbit with hbit | hbit <;>
      simp_all [Instr.fixedFields, Instr.row, BitField.Agree, fieldL_eq, fixedBitsViolated, decodeLoose]
  have hlt := (fieldOpcode w).isLt
  interval_cases hk : (fieldOpcode w).toNat <;>
    simp_all [Instr.fixedFields, Instr.row, BitField.Agree, fixedBitsViolated, decodeLoose]

theorem decode_of_row_covers {i : Instr} {w : Word} (h : i.row.covers w = true) :
    ∃ j, decode true w = .ok j ∧ j.row = i.row := by
  obtain ⟨hfixed, hrow⟩ := decodeLoose_row_of_covers h
  exact ⟨decodeLoose w, (decode_true_eq_ok_iff w _).2 ⟨hfixed, rfl⟩, hrow⟩

theorem row_covers_of_decode {i : Instr} {w : Word} (h : decode true w = .ok i) : i.row.covers w = true := by
  obtain ⟨hfixed, rfl⟩ := (decode_true_eq_ok_iff w i).1 h
  exact decodeLoose_row_covers hfixed

/-- Settles O3: the row of the decoded instruction covers the word, and the decoder reads the form of any row that
does. -/
theorem decoderAgreesWithOpcodeMap : Obligations.DecoderAgreesWithOpcodeMap := by
  refine ⟨fun w => ⟨?_, ?_⟩, fun w i h => ⟨row_covers_of_decode h, fun r hr hcovers => ?_⟩⟩
  · rintro ⟨i, h⟩
    exact ⟨i.row, (mem_opcodeTable_iff _).2 ⟨i, rfl⟩, row_covers_of_decode h⟩
  · rintro ⟨r, hr, hcovers⟩
    obtain ⟨i, rfl⟩ := (mem_opcodeTable_iff r).1 hr
    obtain ⟨j, hj, -⟩ := decode_of_row_covers hcovers
    exact ⟨j, hj⟩
  · obtain ⟨i', rfl⟩ := (mem_opcodeTable_iff r).1 hr
    obtain ⟨j, hj, hrow⟩ := decode_of_row_covers hcovers
    obtain rfl : i = j := Except.ok.inj (h.symm.trans hj)
    exact hrow.symm

end Sys2Proof
end

section
/-! PROOFS. Decoding an encoded instruction (spec/30_encoding.md R51, R57): the encoder's word is a concatenation of
fields, and what the decoder cuts out of it are those same fields. -/

namespace Sys2Proof

/-- A select bit survives the way through a field of one bit. -/
theorem ofBool_beq_one (b : Bool) : (BitVec.ofBool b == 1#1) = b := by cases b <;> rfl

/-- A word that violates no fixed bits is decoded alike under both values of `strict_decode` (R54). -/
theorem decode_of_fixedBits {w : Word} (h : fixedBitsViolated w = none) (strict : Bool) :
    decode strict w = .ok (decodeLoose w) := by
  cases strict <;> simp [decode, h]

/-- The word of an instruction has the fixed bits of the instruction's own row of the opcode map. -/
theorem encode_row_covers (i : Instr) : i.row.covers (encode i) = true := by
  rw [Instr.row_covers_iff]
  cases i <;>
    simp (disch := decide) only [Instr.fixedFields, Instr.row, encode, BitField.Agree,
      BitVec.extractLsb'_append_eq_of_le, BitVec.extractLsb'_append_eq_of_add_le,
      List.forall_mem_cons, List.not_mem_nil, false_implies, implies_true, and_true] <;>
    decide

/-- Every field of an instruction is cut out of its word unchanged. -/
theorem decodeLoose_encode (i : Instr) : decodeLoose (encode i) = i := by
  cases i <;>
    simp (disch := decide) only [encode, decodeLoose, fieldOpcode, fieldDr, fieldSr1, fieldSr2, fieldImm5, fieldOffset6,
      fieldPageoffset9, fieldTrapvect8, fieldImmBit, fieldL, fieldN, fieldZ, fieldP, getLsbD_eq_extractLsb'_one,
      BitVec.extractLsb'_append_eq_of_le, BitVec.extractLsb'_append_eq_of_add_le, Nat.reduceSub] <;>
    simp [ofBool_beq_one]

/-- R57, for both values of `strict_decode`. -/
theorem decode_encode (strict : Bool) (i : Instr) : decode strict (encode i) = .ok i := by
  have hfixed : fixedBitsViolated (encode i) = none := (decodeLoose_row_of_covers (encode_row_covers i)).1
  rw [decode_of_fixedBits hfixed, decodeLoose_encode]

end Sys2Proof
end

section
/-! PROOFS. The operate instructions (spec/40_operate.md R70 to R74). Each ends in `State.result`, whose effect is said
once; what is left of an instruction is its word, which is its encoding, and its value. -/

namespace Sys2Proof.Machine

/-! ### The end of an instruction that sets the codes -/

/-- `setcc` describes the two's complement reading of the value (R14). -/
theorem CC.ofWord_codesOf (v : Word) : CodesOf v (CC.ofWord v) := by
  have hn : v.msb = true ↔ v.toInt < 0 := by rw [BitVec.msb_eq_toInt, decide_eq_true_eq]
  have hz : v = 0#16 ↔ v.toInt = 0 := by rw [← BitVec.toInt_inj, BitVec.toInt_zero]
  refine ⟨hn, beq_iff_eq.trans hz, ?_⟩
  simp only [CC.ofWord, Bool.and_eq_true, Bool.not_eq_true', ← Bool.not_eq_true, hn, bne_iff_ne, ne_eq, hz]
  omega

/-- The result is written, described by the codes, and nothing else but the PC moves; `u` is the machine as the
instruction's accesses to the devices have left it. -/
theorem State.result_resultIs {s u : State} (h : SameCore s u) (dr : Reg) (v : Word) :
    ResultIs s u (u.result dr v) dr v := by
  refine ⟨?_, CC.ofWord_codesOf v, ?_, fun r hr => ?_, h.word, rfl, rfl, rfl, rfl⟩
  · rw [State.result_x, if_pos rfl]
  · rw [State.result_pc, h.pc, BitVec.toNat_add]; rfl
  · rw [State.result_x, if_neg (List.mem_singleton.not.1 hr), h.x]

/-! ### The immediate operand -/

/-- The sum with imm5 is the sum of the signed values, modulo 2^16 (R71). -/
theorem add_immOperand (x : Word) (imm5 : BitVec 5) :
    x + immOperand imm5 = BitVec.ofInt 16 (x.toInt + imm5.toInt) := by
  rw [BitVec.ofInt_add, BitVec.ofInt_toInt, immOperand, BitVec.signExtend]

/-- The mask of imm5 has its bit [4] copied upward (R73). -/
theorem immOperand_getLsbD (imm5 : BitVec 5) {k : Nat} (h : k < 16) :
    (immOperand imm5).getLsbD k = if k < 5 then imm5.getLsbD k else imm5.getLsbD 4 := by
  rw [immOperand, BitVec.getLsbD_signExtend, decide_eq_true h, Bool.true_and, BitVec.msb_eq_getLsbD_last]

/-- The masked word bit by bit. Past bit [15] the word has no bit for the mask to keep. -/
theorem and_immOperand_getLsbD (x : Word) (imm5 : BitVec 5) (k : Nat) :
    (x &&& immOperand imm5).getLsbD k = (x.getLsbD k && if k < 5 then imm5.getLsbD k else imm5.getLsbD 4) := by
  rw [BitVec.getLsbD_and]
  by_cases h : k < 16
  · rw [immOperand_getLsbD imm5 h]
  · rw [BitVec.getLsbD_of_ge x k (Nat.le_of_not_lt h), Bool.false_and, Bool.false_and]

/-! ### The five instructions -/

/-- Settles O15: addition of words is addition modulo 2^16. -/
theorem addRegisterResult : Obligations.AddRegisterResult := by
  intro strict dr sr1 sr2 s
  exact ⟨decode_encode strict (.addR dr sr1 sr2),
    s.result dr (s.x sr1 + s.x sr2), _, rfl, BitVec.toNat_add _ _, State.result_resultIs .rfl dr _⟩

/-- Settles O16: the immediate operand is the word of imm5's signed value. -/
theorem addImmediateResult : Obligations.AddImmediateResult := by
  intro strict dr sr1 imm5 s
  exact ⟨decode_encode strict (.addI dr sr1 imm5),
    s.result dr (s.x sr1 + immOperand imm5), _, rfl, add_immOperand _ _, State.result_resultIs .rfl dr _⟩

/-- Settles O17: conjunction of words is conjunction of each pair of bits. -/
theorem andRegisterResult : Obligations.AndRegisterResult := by
  intro strict dr sr1 sr2 s
  exact ⟨decode_encode strict (.andR dr sr1 sr2),
    s.result dr (s.x sr1 &&& s.x sr2), _, rfl, fun _ => BitVec.getLsbD_and, State.result_resultIs .rfl dr _⟩

/-- Settles O18: as O17, with the bits of the sign-extended mask. -/
theorem andImmediateResult : Obligations.AndImmediateResult := by
  intro strict dr sr1 imm5 s
  exact ⟨decode_encode strict (.andI dr sr1 imm5),
    s.result dr (s.x sr1 &&& immOperand imm5), _, rfl, and_immOperand_getLsbD _ _, State.result_resultIs .rfl dr _⟩

/-- Settles O19: the complement of a word is xFFFF minus its value. -/
theorem notResult : Obligations.NotResult := by
  intro strict dr sr s
  exact ⟨decode_encode strict (.notR dr sr),
    s.result dr (~~~ s.x sr), _, rfl, BitVec.toNat_not, State.result_resultIs .rfl dr _⟩

end Sys2Proof.Machine
end

section
/-! PROOFS. The two address forms of the data movement and control instructions, as numbers (spec/41_data_movement.md
R88, R89), and LEA (R81). -/

namespace Sys2Proof.Machine

/-! ### Addresses as numbers -/

/-- The page of an address is the address with its low 9 bits cleared, and `po` fills those bits. -/
theorem onPage_toNat (base : Word) (po : BitVec 9) :
    (onPage base po).toNat = base.toNat / 512 * 512 + po.toNat := by
  have hpage : (base.extractLsb' 9 7).toNat = base.toNat / 512 := by
    rw [BitVec.extractLsb'_toNat, Nat.shiftRight_eq_div_pow]
    exact Nat.mod_eq_of_lt (by omega)
  rw [onPage, BitVec.toNat_append, ← Nat.shiftLeft_add_eq_or_of_lt po.isLt, Nat.shiftLeft_eq, hpage]

theorem State.nextPc_toNat (s : State) : s.nextPc.toNat = (s.pc.toNat + 1) % 65536 := BitVec.toNat_add _ _

theorem State.pageAddr_of_ia {s : State} (h : s.params.pageBase = .ia) (po : BitVec 9) :
    s.pageAddr po = onPage s.pc po := by
  rw [State.pageAddr, h]

theorem State.pageAddr_of_iaPlus1 {s : State} (h : s.params.pageBase = .iaPlus1) (po : BitVec 9) :
    s.pageAddr po = onPage s.nextPc po := by
  rw [State.pageAddr, h]

/-- The offset is a number from 0 to 63: its extension has no sign (R89). -/
theorem offsetOperand_toNat (off : BitVec 6) : (offsetOperand off).toNat = off.toNat :=
  BitVec.toNat_setWidth_of_le (by decide)

/-! ### The statements -/

/-- Settles O20: a concatenation puts the page above the offset, for either reading of `page_base`. -/
theorem pageAddressIsOnThePage : Obligations.PageAddressIsOnThePage := by
  refine fun s po => ⟨fun h => ?_, fun h => ?_⟩
  · rw [State.pageAddr_of_ia h, onPage_toNat]
  · rw [State.pageAddr_of_iaPlus1 h, onPage_toNat, State.nextPc_toNat]

/-- Settles O21: addition of words is addition modulo 2^16, and the offset is its own value. -/
theorem baseOffsetAddressIsTheSum : Obligations.BaseOffsetAddressIsTheSum := by
  intro s base off
  rw [IsBaseAddress, State.baseAddr, BitVec.toNat_add, offsetOperand_toNat]

/-- Settles O22: the value written is the page address itself, of O20. -/
theorem leaResult : Obligations.LeaResult := by
  intro strict dr po s
  exact ⟨decode_encode strict (.lea dr po),
    s.result dr (s.pageAddr po), _, rfl, pageAddressIsOnThePage s po, State.result_resultIs .rfl dr _⟩

end Sys2Proof.Machine
end

section
/-! PROOFS. The control instructions that go to an address without reading memory (spec/42_control.md R100 to R103,
R105). Each ends in `State.jumpTo` or `State.link`, whose effect is said once; what is left of an instruction is its
word, which is its encoding, and where it goes. -/

namespace Sys2Proof.Machine

/-! ### The end of a control instruction -/

/-- A jump moves the PC alone. -/
theorem State.jumpTo_jumpsTo (s : State) (v : Word) : JumpsTo s (s.jumpTo v) v :=
  ⟨rfl, rfl, fun _ _ => rfl, fun _ => rfl, rfl, rfl, rfl, rfl⟩

/-- A linking jump writes R7 and the PC; `u` is the machine as the instruction's accesses to the devices have left
it. -/
theorem State.link_linksTo {s u : State} (h : SameCore s u) (v : Word) : LinksTo s u (u.link v) v := by
  refine ⟨rfl, ?_, h.cc, fun r hr => ?_, h.word, rfl, rfl, rfl, rfl⟩
  · rw [State.link_x, if_pos rfl, h.pc]; exact s.nextPc_toNat
  · rw [State.link_x, if_neg (List.mem_singleton.not.1 hr), h.x]

theorem CC.taken_iff (c : CC) (n z p : Bool) :
    c.taken n z p = true ↔ (n = true ∧ c.n = true) ∨ (z = true ∧ c.z = true) ∨ (p = true ∧ c.p = true) := by
  simp only [CC.taken, Bool.or_eq_true, Bool.and_eq_true, or_assoc]

/-! ### The five instructions -/

/-- Settles O36: the branch is a jump to the page address or to the next instruction, as `CC.taken` says. -/
theorem brResult : Obligations.BrResult := by
  intro strict n z p po s
  refine ⟨decode_encode strict (.br n z p po), _, s.pageAddr po, rfl, pageAddressIsOnThePage s po, ?_⟩
  rw [← CC.taken_iff]
  refine ⟨fun htaken => ?_, fun hnot => ?_⟩
  · rw [if_pos htaken]; exact s.jumpTo_jumpsTo _
  · rw [if_neg hnot]; exact s.jumpTo_jumpsTo _

/-- Settles O37: the target is the page address of O20. -/
theorem jmpResult : Obligations.JmpResult := by
  intro strict po s
  exact ⟨decode_encode strict (.jmp po),
    s.jumpTo (s.pageAddr po), _, rfl, pageAddressIsOnThePage s po, s.jumpTo_jumpsTo _⟩

/-- Settles O38: as O37, with the return address saved on the way. -/
theorem jsrResult : Obligations.JsrResult := by
  intro strict po s
  exact ⟨decode_encode strict (.jsr po),
    s.link (s.pageAddr po), _, rfl, pageAddressIsOnThePage s po, State.link_linksTo .rfl _⟩

/-- Settles O39: the target is the base+offset address of O21. -/
theorem jmprResult : Obligations.JmprResult := by
  intro strict base off s
  exact ⟨decode_encode strict (.jmpr base off),
    s.jumpTo (s.baseAddr base off), _, rfl, baseOffsetAddressIsTheSum s base off, s.jumpTo_jumpsTo _⟩

/-- Settles O41: the return is a jump to the address R7 holds. -/
theorem retResult : Obligations.RetResult :=
  fun strict s => ⟨decode_encode strict .ret, s.returnByLink, rfl, s.jumpTo_jumpsTo _⟩

end Sys2Proof.Machine
end

section
/-! PROOFS. Encoding a decoded word (spec/30_encoding.md R54, R57). The encoder puts back every field the decoder has
cut out; the bits it does not put back are fixed by the row of the form, and there a word of the opcode map has them
too. -/

namespace Sys2Proof

open Sys2Proof.Machine

/-! ### The fields the decoder reads -/

/-- The fields of a word that the form is decoded from: the opcode, the bit that selects the form, if there is one, and
the variable fields. -/
def Instr.readFields : Instr → List BitField
  | .br _ _ _ _ => [(12, 4), (11, 1), (10, 1), (9, 1), (0, 9)]
  | .addR _ _ _ | .andR _ _ _ => [(12, 4), (9, 3), (6, 3), (5, 1), (0, 3)]
  | .addI _ _ _ | .andI _ _ _ => [(12, 4), (9, 3), (6, 3), (5, 1), (0, 5)]
  | .jmp _ | .jsr _ => [(12, 4), (11, 1), (0, 9)]
  | .jmpr _ _ | .jsrr _ _ => [(12, 4), (11, 1), (6, 3), (0, 6)]
  | .ldr _ _ _ | .str _ _ _ => [(12, 4), (9, 3), (6, 3), (0, 6)]
  | .notR _ _ => [(12, 4), (9, 3), (6, 3)]
  | .ld _ _ | .st _ _ | .ldi _ _ | .sti _ _ | .lea _ _ => [(12, 4), (9, 3), (0, 9)]
  | .trap _ => [(12, 4), (0, 8)]
  | .rti | .ret => [(12, 4)]

/-- A bit that the row of the form leaves open belongs to a field that is read. -/
theorem Instr.readFields_of_mask_false (i : Instr) :
    ∀ k < 16, i.row.mask.getLsbD k = false → ∃ f ∈ i.readFields, f.hasBit k = true := by
  simp only [← List.any_eq_true]
  cases i <;> simp only [Instr.row, Instr.readFields] <;> decide

theorem Instr.opcode_mem_readFields (i : Instr) : (12, 4) ∈ i.readFields := by cases i <;> simp [Instr.readFields]

/-- ADD and AND are told from their immediate forms by bit [5]. -/
theorem Instr.immBit_mem_readFields {i : Instr}
    (h : fieldOpcode (encode i) = 1#4 ∨ fieldOpcode (encode i) = 5#4) : (5, 1) ∈ i.readFields := by
  cases i <;>
    simp (disch := decide) only [encode, fieldOpcode, BitVec.extractLsb'_append_eq_of_le, Nat.reduceSub] at h <;>
    simp [Instr.readFields] at h ⊢

/-- The jumps are told from their subroutine forms by bit [11]. -/
theorem Instr.l_mem_readFields {i : Instr}
    (h : fieldOpcode (encode i) = 4#4 ∨ fieldOpcode (encode i) = 12#4) : (11, 1) ∈ i.readFields := by
  cases i <;>
    simp (disch := decide) only [encode, fieldOpcode, BitVec.extractLsb'_append_eq_of_le, Nat.reduceSub] at h <;>
    simp [Instr.readFields] at h ⊢

/-- A field of one bit as the bit. -/
theorem BitField.agree_one_iff (w v : Word) (k : Nat) : BitField.Agree (k, 1) w v ↔ w.getLsbD k = v.getLsbD k := by
  rw [getLsbD_eq_extractLsb'_one, getLsbD_eq_extractLsb'_one, BitField.Agree]
  rcases BitVec.eq_zero_or_eq_one (w.extractLsb' k 1) with h | h <;>
    rcases BitVec.eq_zero_or_eq_one (v.extractLsb' k 1) with h' | h' <;> simp [h, h']

/-- A field of one bit is the bit. -/
theorem ofBool_getLsbD (w : Word) (k : Nat) : BitVec.ofBool (w.getLsbD k) = w.extractLsb' k 1 := by
  rw [getLsbD_eq_extractLsb'_one]
  rcases BitVec.eq_zero_or_eq_one (w.extractLsb' k 1) with h | h <;> simp [h]

/-- Every field the decoder reads is put back by the encoder, whatever the bits it does not read. The opcode tells the
form, but for ADD and AND (bit [5]) and the jumps (bit [11]); then field after field is cut out of a concatenation. -/
theorem encode_decodeLoose_agree (w : Word) :
    ∀ f ∈ (decodeLoose w).readFields, f.Agree (encode (decodeLoose w)) w := by
  have hop : w.extractLsb' 12 4 = BitVec.ofNat 4 (fieldOpcode w).toNat := by
    rw [BitVec.ofNat_toNat, BitVec.setWidth_eq, fieldOpcode]
  have himm : w.extractLsb' 5 1 = BitVec.ofBool (fieldImmBit w) := (ofBool_getLsbD w 5).symm
  have hl : w.extractLsb' 11 1 = BitVec.ofBool (fieldL w) := (ofBool_getLsbD w 11).symm
  have hlt := (fieldOpcode w).isLt
  interval_cases hk : (fieldOpcode w).toNat <;> simp only [decodeLoose, hk] <;> (try split) <;>
    simp (disch := decide) only [Instr.readFields, encode, BitField.Agree, List.forall_mem_cons, List.not_mem_nil,
      false_implies, implies_true, and_true, fieldDr, fieldSr1, fieldSr2, fieldImm5, fieldOffset6, fieldPageoffset9,
      fieldTrapvect8, fieldN, fieldZ, fieldP, Reg.toBits_ofBits, ofBool_getLsbD, Nat.reduceSub,
      BitVec.extractLsb'_append_eq_of_le, BitVec.extractLsb'_append_eq_of_add_le] <;>
    simp_all

/-- The encoder puts back every bit that the row of the form leaves open. -/
theorem encode_decodeLoose_getLsbD {w : Word} {k : Nat} (hk : k < 16)
    (hmask : (decodeLoose w).row.mask.getLsbD k = false) :
    (encode (decodeLoose w)).getLsbD k = w.getLsbD k := by
  obtain ⟨f, hf, hbit⟩ := (decodeLoose w).readFields_of_mask_false k hk hmask
  exact (f.agree_iff_bits _ _).1 (encode_decodeLoose_agree w f hf) k hk hbit

/-! ### The strict decoder -/

/-- Settles O1: the encoder's word has the fixed bits and the fields of the instruction. -/
theorem decodeAfterEncodeIsIdentity : Obligations.DecodeAfterEncodeIsIdentity := decode_encode

/-- Settles O2: the bits the row of the instruction fixes are those of the row, in the word and in the encoding; the
others are put back. -/
theorem encodeAfterDecodeIsIdentity : Obligations.EncodeAfterDecodeIsIdentity := by
  intro w i h
  have hw : w &&& i.row.mask = i.row.pattern := beq_iff_eq.1 (row_covers_of_decode h)
  have he : encode i &&& i.row.mask = i.row.pattern := beq_iff_eq.1 (encode_row_covers i)
  obtain ⟨-, rfl⟩ := (decode_true_eq_ok_iff w i).1 h
  refine BitVec.eq_of_getLsbD_eq fun k hk => ?_
  cases hmask : (decodeLoose w).row.mask.getLsbD k with
  | true => exact (and_eq_and_iff_bits _ _ _).1 (he.trans hw.symm) k hk hmask
  | false => exact encode_decodeLoose_getLsbD hk hmask

theorem decode_true_eq_error_iff (w : Word) (why : Invalid) :
    decode true w = .error why ↔ fixedBitsViolated w = some why := by
  unfold decode
  cases fixedBitsViolated w <;> simp

/-- A run of bits as a number is a field of the word. -/
theorem bitsAt_eq (w : Word) (lo n : Nat) : bitsAt w lo n = (w.extractLsb' lo n).toNat :=
  (extractLsb'_toNat_eq w lo n).symm

/-- The rows of R54 are the tests the strict decoder makes. -/
theorem outsideTable_iff (w : Word) : outsideTable w ↔ (fixedBitsViolated w).isSome = true := by
  have himm : fieldImmBit w = false ↔ w.extractLsb' 5 1 = 0#1 := by
    rw [fieldImmBit_eq]
    rcases BitVec.eq_zero_or_eq_one (w.extractLsb' 5 1) with h | h <;> simp [h]
  unfold outsideTable fixedBitsViolated
  simp only [bitsAt_eq, fieldOpcode]
  have hlt := (w.extractLsb' 12 4).isLt
  interval_cases hk : (w.extractLsb' 12 4).toNat <;>
    simp [himm, BitVec.toNat_eq]

/-- What the loose decoder reads has the opcode, the selector bit and the variable bits of the word. -/
theorem decodeLoose_spec (w : Word) :
    fieldOpcode (encode (decodeLoose w)) = fieldOpcode w ∧
    (encode (decodeLoose w) ^^^ w) &&& ~~~ (decodeLoose w).row.mask = 0#16 ∧
    (fieldOpcode w = 1#4 ∨ fieldOpcode w = 5#4 → (encode (decodeLoose w)).getLsbD 5 = w.getLsbD 5) ∧
    (fieldOpcode w = 4#4 ∨ fieldOpcode w = 12#4 → (encode (decodeLoose w)).getLsbD 11 = w.getLsbD 11) := by
  have hagree := encode_decodeLoose_agree w
  have hop : fieldOpcode (encode (decodeLoose w)) = fieldOpcode w := hagree _ (Instr.opcode_mem_readFields _)
  refine ⟨hop, BitVec.eq_of_getLsbD_eq fun k hk => ?_, fun h => ?_, fun h => ?_⟩
  · cases hmask : (decodeLoose w).row.mask.getLsbD k with
    | true => simp [hmask]
    | false => simp [encode_decodeLoose_getLsbD hk hmask]
  · exact (BitField.agree_one_iff _ _ _).1 (hagree _ (Instr.immBit_mem_readFields (by rwa [hop])))
  · exact (BitField.agree_one_iff _ _ _).1 (hagree _ (Instr.l_mem_readFields (by rwa [hop])))

/-- Settles O4: strictly, the tests are those of R54; loosely, a word is read as its opcode and selector bit say. -/
theorem wordsOutsideTheTable : Obligations.WordsOutsideTheTable := by
  refine ⟨fun w => ?_, fun w => ⟨decodeLoose w, rfl, decodeLoose_spec w⟩, fun w i h => ?_⟩
  · simp only [outsideTable_iff, decode_true_eq_error_iff, Option.isSome_iff_exists]
  · exact congrArg Except.ok ((decode_true_eq_ok_iff w i).1 h).2

/-- Settles O5: each word is the encoding of its instruction. -/
theorem exampleWordsDecode : Obligations.ExampleWordsDecode :=
  ⟨decode_encode true (.addR .r2 .r3 .r4), decode_encode true (.andI .r2 .r3 7), decode_encode true (.notR .r4 .r2),
    decode_encode true (.ldr .r5 .r7 61), decode_encode true (.sti .r5 0x1FD),
    decode_encode true (.br false true true 0x1FD), decode_encode true (.jsrr .r2 10), decode_encode true (.trap 0x23)⟩

end Sys2Proof
end

section
/-! PROOFS. The rules of the whole machine: what every instruction keeps (spec/10_state.md R12, R16, R17;
spec/20_memory.md R41, R42; spec/60_exceptions.md R167, R168). `exec_next` sorts the next states of exec by the shape
of the instruction's effect, and each rule is proved shape by shape. -/

namespace Sys2Proof.Machine

/-! ### What a write of memory can change -/

theorem WaitKeeps.canonical {s u : State} (h : WaitKeeps s u) (hs : s.MemoryCanonical) : u.MemoryCanonical := by
  rwa [State.MemoryCanonical, h.core.mem]

theorem memWrite_canonical {s t : State} {a v : Word} (h : s.memWrite a v = .ok t) (hs : s.MemoryCanonical) :
    t.MemoryCanonical := by
  obtain ⟨-, e⟩ | ⟨-, -, e⟩ | ⟨-, e⟩ | ⟨r, e⟩ := memWrite_cases s a v <;> rw [e] at h <;> cases h
  · exact Memory.wf_write a v (by rwa [gap_mem])
  · rwa [State.MemoryCanonical, State.display_mem, gap_mem]
  · rwa [State.MemoryCanonical, State.writeMcr_mem, gap_mem]

theorem memWrite_keepsWordsBut {s t : State} {a v : Word} (h : s.memWrite a v = .ok t) (hs : s.MemoryCanonical) :
    KeepsWordsBut a s t := by
  intro b hb
  obtain ⟨-, e⟩ | ⟨-, -, e⟩ | ⟨-, e⟩ | ⟨r, e⟩ := memWrite_cases s a v <;> rw [e] at h <;> cases h
  · rw [State.word_setWord (by rwa [gap_mem]), if_neg hb, gap_word]
  · rw [State.display_word, gap_word]
  · rw [State.writeMcr_word, gap_word]

theorem memWrite_crtOut {s t : State} {a v : Word} (h : s.memWrite a v = .ok t) : s.dev.crtOut <+: t.dev.crtOut := by
  obtain ⟨-, e⟩ | ⟨-, -, e⟩ | ⟨-, e⟩ | ⟨r, e⟩ := memWrite_cases s a v <;> rw [e] at h <;> cases h <;> simp

theorem deviceAt_eq_mcr {a : Word} (h : deviceAt a = some .mcr) : a = 0xF402#16 := by
  unfold deviceAt at h
  split_ifs at h <;> simp_all

/-- A write that clears the clock enable bit is one of a word with bit [15] = 0 to MCR. -/
theorem memWrite_stops {s t : State} {a v : Word} (h : s.memWrite a v = .ok t) (hs : s.dev.clockEnable = true)
    (ht : t.dev.clockEnable = false) : a = 0xF402#16 ∧ v.getLsbD 15 = false := by
  obtain ⟨-, e⟩ | ⟨-, -, e⟩ | ⟨hd, e⟩ | ⟨r, e⟩ := memWrite_cases s a v <;> rw [e] at h <;> cases h
  · simp [hs] at ht
  · simp [hs] at ht
  · exact ⟨deviceAt_eq_mcr hd, by simpa [BitVec.msb_eq_getLsbD_last] using ht⟩

/-! ### What each instruction names -/

theorem regsWritten_of_codeSetter {i : Instr} {dr : Reg} (p : Params) (h : codeSetter i = some dr) :
    regsWritten p i = [dr] := by
  cases i <;> simp_all [codeSetter, regsWritten]

theorem storeAddr_of_codeSetter {i : Instr} {dr : Reg} (s : State) (h : codeSetter i = some dr) :
    storeAddr s i = none := by
  cases i <;> simp_all [codeSetter, storeAddr]

theorem isServiceCall_iff {s : State} {i : Instr} :
    isServiceCall s i = true ↔ ∃ vec, i = .trap vec ∧ s.params.trapMode = .contract := by
  cases i <;> simp [isServiceCall]

theorem storeAddr_of_isServiceCall {s : State} {i : Instr} (h : isServiceCall s i = true) : storeAddr s i = none := by
  obtain ⟨vec, rfl, -⟩ := isServiceCall_iff.1 h
  rfl

theorem codeSetter_of_isServiceCall {s : State} {i : Instr} (h : isServiceCall s i = true) : codeSetter i = none := by
  obtain ⟨vec, rfl, -⟩ := isServiceCall_iff.1 h
  rfl

/-- A service call may write R0 and R7, and without `os_preserves` any register. -/
theorem mem_regsWritten_of_isServiceCall {s : State} {i : Instr} (h : isServiceCall s i = true) {r : Reg}
    (hr : r ∉ regsWritten s.params i) : s.params.osPreserves = true ∧ r ≠ .r0 ∧ r ≠ .r7 := by
  obtain ⟨vec, rfl, hmode⟩ := isServiceCall_iff.1 h
  cases hos : s.params.osPreserves with
  | true => simpa [regsWritten, hmode, hos] using hr
  | false => cases r <;> simp [regsWritten, hmode, hos] at hr

/-! ### Memory -/

theorem exec_canonical {i : Instr} {s t : State} (h : exec i s = .next t) (hs : s.MemoryCanonical) :
    t.MemoryCanonical := by
  cases exec_next h with
  | result dr v u _ _ reads eq => subst eq; exact reads.canonical hs
  | jump v _ _ _ _ eq => subst eq; exact hs
  | link v u _ _ _ _ _ reads eq => subst eq; exact reads.canonical hs
  | store a v u w _ _ _ _ reads write eq =>
    have hw : w.MemoryCanonical := memWrite_canonical write (reads.canonical hs)
    subst eq; exact hw
  | rti r w1 w2 v1 v2 u1 u2 _ _ read1 read2 eq =>
    subst eq
    exact read2.canonical (s := u1.setReg r.sp v1) (read1.canonical hs)
  | call u cs _ waits _ _ eq =>
    have hu : u.MemoryCanonical := by rwa [State.MemoryCanonical, waits.mem]
    obtain ⟨-, -, -, -, -, -, -, hwf, -⟩ := returnFromCall_spec u
    obtain rfl | ⟨v, rfl⟩ := eq <;> exact hwf hu
  | waits _ shown => rwa [State.MemoryCanonical, shown.core.mem]
  | halt _ _ eq =>
    subst eq
    obtain ⟨-, -, -, -, -, -, hwf, -⟩ := callHalt_spec s
    exact hwf hs

/-- Settles O51: an instruction keeps the form, and so does the gap before the fetch. -/
theorem memoryStaysCanonical : Obligations.MemoryStaysCanonical := by
  intro s t hs h
  obtain ⟨-, w, i, -, -, hexec⟩ := step_next h
  exact exec_canonical hexec ((gap_waitKeeps s).canonical hs)

theorem keepsWords_of_mem {s t : State} (h : t.mem = s.mem) : KeepsWords s t := fun a => by
  rw [State.word, h, State.word]

/-- Settles O56: every effect but a store leaves memory, and a store leaves every word but its own. -/
theorem onlyTheStoredWordChanges : Obligations.OnlyTheStoredWordChanges := by
  intro i s t hs h hcall
  have kept (hmem : t.mem = s.mem) :
      (storeAddr s i = none → KeepsWords s t) ∧ ∀ a, storeAddr s i = some a → KeepsWordsBut a s t :=
    ⟨fun _ => keepsWords_of_mem hmem, fun _ _ b _ => keepsWords_of_mem hmem b⟩
  cases exec_next h with
  | result dr v u _ _ reads eq => subst eq; exact kept reads.core.mem
  | jump v _ _ _ _ eq => subst eq; exact kept rfl
  | link v u _ _ _ _ _ reads eq => subst eq; exact kept reads.core.mem
  | store a v u w _ _ addr _ reads write eq =>
    subst eq
    refine ⟨fun hnone => by simp [addr] at hnone, fun b hb c hc => ?_⟩
    obtain rfl : a = b := Option.some.inj (addr.symm.trans hb)
    exact (memWrite_keepsWordsBut write (reads.canonical hs) c hc).trans (reads.core.word c)
  | rti r w1 w2 v1 v2 u1 u2 _ _ read1 read2 eq => subst eq; exact kept (read2.core.mem.trans read1.core.mem)
  | call _ _ call => simp [hcall] at call
  | waits call => simp [hcall] at call
  | halt call => simp [hcall] at call

/-- An instruction that stores ends in a write of its value to its address, after a read of memory (or none). -/
theorem exec_next_of_storeAddr {i : Instr} {s t : State} {a v : Word} (ha : storeAddr s i = some a)
    (hv : storeValue s i = some v) (h : exec i s = .next t) :
    ∃ u w, WaitKeeps s u ∧ u.memWrite a v = .ok w ∧ t = w.advance := by
  cases exec_next h with
  | result dr _ _ setter => simp [storeAddr_of_codeSetter s setter] at ha
  | jump _ _ _ _ store => simp [store] at ha
  | link _ _ _ _ _ store => simp [store] at ha
  | store a' v' u w _ _ addr value reads write eq =>
    obtain rfl : a' = a := Option.some.inj (addr.symm.trans ha)
    obtain rfl : v' = v := Option.some.inj (value.symm.trans hv)
    exact ⟨u, w, reads, write, eq⟩
  | rti _ _ _ _ _ _ _ isRti => subst isRti; cases ha
  | call _ _ call => simp [storeAddr_of_isServiceCall call] at ha
  | waits call => simp [storeAddr_of_isServiceCall call] at ha
  | halt call => simp [storeAddr_of_isServiceCall call] at ha

theorem fetch_of_ordinary {s : State} (h : s.ordinary s.pc = true) : s.fetch = .ok (s.word s.pc) := by
  obtain ⟨hdev, hram⟩ := ordinary_iff.1 h
  simp [State.fetch, hdev, hram]

/-- Settles O10: the write is of ordinary memory, and a fetch reads what ordinary memory holds. -/
theorem storeIsSeenByFetch : Obligations.StoreIsSeenByFetch := by
  intro i s t a v hs ha hv hord h
  obtain ⟨u, w, reads, write, rfl⟩ := exec_next_of_storeAddr ha hv h
  have hordU : u.ordinary a = true := by rwa [reads.core.ordinary]
  obtain rfl : u.gap.setWord a v = w := Except.ok.inj ((memWrite_ordinary hordU).symm.trans write)
  have hcanon : Memory.wf u.gap.mem = true := by rw [gap_mem]; exact reads.canonical hs
  rw [fetch_of_ordinary]
  · rw [State.jumpTo_pc, State.jumpTo_word, State.advance_word, State.word_setWord hcanon, if_pos rfl]
  · rw [← hordU]; simp [State.ordinary]

/-! ### The condition codes -/

/-- Settles O52: the codes are kept, or set from a value, or one of three patterns. -/
theorem codesStayOneHot : Obligations.CodesStayOneHot := by
  intro i s t hrti hs h
  have kept (hcc : t.cc = s.cc) : t.OneHot := by rwa [State.OneHot, hcc]
  cases exec_next h with
  | result dr v u _ _ _ eq => subst eq; exact CC.ofWord_oneHot v
  | jump v _ _ _ _ eq => subst eq; exact kept rfl
  | link v u _ _ _ _ _ reads eq => subst eq; exact kept reads.core.cc
  | store a v u w _ _ _ _ reads write eq =>
    subst eq
    obtain ⟨-, -, hcc, -⟩ := memWrite_keeps write
    exact kept (hcc.trans reads.core.cc)
  | rti _ _ _ _ _ _ _ isRti => exact absurd isRti hrti
  | call u cs _ _ _ _ eq =>
    obtain ⟨-, -, -, hcc, -⟩ := returnFromCall_spec u
    obtain rfl | ⟨v, rfl⟩ := eq <;> exact hcc
  | waits _ shown => exact kept shown.core.cc
  | halt _ _ eq =>
    subst eq
    obtain ⟨-, -, -, -, hcc, -⟩ := callHalt_spec s
    exact hcc

/-- Settles O53: DR and the codes are written together, from one value. -/
theorem onlyTheSevenSetCodes : Obligations.OnlyTheSevenSetCodes := by
  intro i s t h
  have kept (hset : codeSetter i = none) (hcc : t.cc = s.cc) :
      (∀ dr, codeSetter i = some dr → CodesOf (t.x dr) t.cc) ∧
      (codeSetter i = none → i ≠ .rti → isServiceCall s i = false → t.cc = s.cc) :=
    ⟨fun dr hdr => by simp [hset] at hdr, fun _ _ _ => hcc⟩
  cases exec_next h with
  | result dr v u setter _ _ eq =>
    subst eq
    refine ⟨fun q hq => ?_, fun hnone => by simp [setter] at hnone⟩
    obtain rfl : dr = q := Option.some.inj (setter.symm.trans hq)
    rw [State.result_x, if_pos rfl]
    exact CC.ofWord_codesOf v
  | jump v _ setter _ _ eq => subst eq; exact kept setter rfl
  | link v u _ setter _ _ _ reads eq => subst eq; exact kept setter reads.core.cc
  | store a v u w _ setter _ _ reads write eq =>
    subst eq
    obtain ⟨-, -, hcc, -⟩ := memWrite_keeps write
    exact kept setter (hcc.trans reads.core.cc)
  | rti _ _ _ _ _ _ _ isRti =>
    subst isRti
    exact ⟨fun dr hdr => by simp [codeSetter] at hdr, fun _ hne => absurd rfl hne⟩
  | call _ _ call =>
    exact ⟨fun dr hdr => by simp [codeSetter_of_isServiceCall call] at hdr, fun _ _ hno => by simp [call] at hno⟩
  | waits call shown => exact kept (codeSetter_of_isServiceCall call) shown.core.cc
  | halt call =>
    exact ⟨fun dr hdr => by simp [codeSetter_of_isServiceCall call] at hdr, fun _ _ hno => by simp [call] at hno⟩

/-! ### The registers -/

theorem keepsRegsBut_of_regs {s t : State} (rs : List Reg) (h : t.regs = s.regs) : KeepsRegsBut rs s t :=
  fun r _ => by rw [State.x, h, State.x]

/-- Settles O55: DR, R7, RTI's pointer and the registers of a service call are the only ones an effect writes. -/
theorem onlyNamedRegistersWritten : Obligations.OnlyNamedRegistersWritten := by
  intro i s t h
  cases exec_next h with
  | result dr v u setter _ reads eq =>
    subst eq
    rw [regsWritten_of_codeSetter s.params setter]
    obtain ⟨-, -, -, hregs, -⟩ := State.result_resultIs reads.core dr v
    exact hregs
  | jump v _ _ _ _ eq => subst eq; exact keepsRegsBut_of_regs _ rfl
  | link v u _ _ _ _ regs reads eq =>
    subst eq
    rw [regs]
    obtain ⟨-, -, -, hregs, -⟩ := State.link_linksTo reads.core v
    exact hregs
  | store a v u w _ _ _ _ reads write eq =>
    subst eq
    obtain ⟨hregs, -⟩ := memWrite_keeps write
    exact keepsRegsBut_of_regs _ (hregs.trans reads.core.regs)
  | rti r w1 w2 v1 v2 u1 u2 isRti convention read1 read2 eq =>
    subst isRti eq
    intro q hq
    have hne : q ≠ r.sp := by simpa [regsWritten, convention] using hq
    rw [State.restore_x, State.setReg_x, if_neg hne, read2.core.x, State.setReg_x, if_neg hne, read1.core.x]
  | call u cs call waits _ _ eq =>
    intro q hq
    obtain ⟨hos, h0, h7⟩ := mem_regsWritten_of_isServiceCall call hq
    obtain ⟨-, -, -, -, -, -, -, -, hkeep⟩ := returnFromCall_spec u
    have hx : u.returnFromCall.x q = s.x q := ((hkeep (waits.params ▸ hos)).2 q h7).trans (waits.x q)
    obtain rfl | ⟨v, rfl⟩ := eq
    · exact hx
    · rwa [State.setReg_x, if_neg h0]
  | waits _ shown => exact keepsRegsBut_of_regs _ shown.core.regs
  | halt call _ eq =>
    subst eq
    intro q hq
    obtain ⟨hos, -, h7⟩ := mem_regsWritten_of_isServiceCall call hq
    obtain ⟨-, -, -, -, -, -, -, hkeep⟩ := callHalt_spec s
    exact (hkeep hos).2 q h7

/-! ### The output and the clock -/

theorem exec_crtOut {i : Instr} {s t : State} (h : exec i s = .next t) : s.dev.crtOut <+: t.dev.crtOut := by
  have kept (hout : t.dev.crtOut = s.dev.crtOut) : s.dev.crtOut <+: t.dev.crtOut := hout ▸ List.prefix_rfl
  cases exec_next h with
  | result dr v u _ _ reads eq => subst eq; exact kept reads.out
  | jump v _ _ _ _ eq => subst eq; exact kept rfl
  | link v u _ _ _ _ _ reads eq => subst eq; exact kept reads.out
  | store a v u w _ _ _ _ reads write eq =>
    have hw : s.dev.crtOut <+: w.dev.crtOut := reads.out ▸ memWrite_crtOut write
    subst eq; exact hw
  | rti r w1 w2 v1 v2 u1 u2 _ _ read1 read2 eq => subst eq; exact kept (read2.out.trans read1.out)
  | call u cs _ _ out _ eq =>
    obtain ⟨-, -, -, -, hdev, -⟩ := returnFromCall_spec u
    obtain rfl | ⟨v, rfl⟩ := eq
    · rw [hdev, out]; exact List.prefix_append _ _
    · rw [State.setReg_dev, hdev, out]; exact List.prefix_append _ _
  | waits _ shown =>
    obtain ⟨cs, hcs⟩ := shown.out
    exact hcs ▸ List.prefix_append _ _
  | halt _ _ eq =>
    subst eq
    obtain ⟨hout, -⟩ := callHalt_spec s
    exact hout ▸ List.prefix_append _ _

/-- Settles O57: an instruction only adds to the output, and the gap before the fetch leaves it. -/
theorem outputOnlyGrows : Obligations.OutputOnlyGrows := by
  intro s t h
  obtain ⟨-, w, i, -, -, hexec⟩ := step_next h
  exact gap_crtOut s ▸ exec_crtOut hexec

/-- Settles O58: every effect but a store and HALT leaves the clock enable bit. -/
theorem onlyMcrStoreStopsTheMachine : Obligations.OnlyMcrStoreStopsTheMachine := by
  intro i s t hs h ht
  have kept (hclock : t.dev.clockEnable = s.dev.clockEnable) : False := by simp [hclock, hs] at ht
  cases exec_next h with
  | result dr v u _ _ reads eq => subst eq; exact (kept reads.clock).elim
  | jump v _ _ _ _ eq => subst eq; exact (kept rfl).elim
  | link v u _ _ _ _ _ reads eq => subst eq; exact (kept reads.clock).elim
  | store a v u w _ _ addr value reads write eq =>
    subst eq
    obtain ⟨rfl, hbit⟩ := memWrite_stops write (reads.clock.trans hs) ht
    exact .inl ⟨addr, v, value, hbit⟩
  | rti r w1 w2 v1 v2 u1 u2 _ _ read1 read2 eq => subst eq; exact (kept (read2.clock.trans read1.clock)).elim
  | call u cs _ _ _ clock eq =>
    obtain ⟨-, -, -, -, hdev, -⟩ := returnFromCall_spec u
    have hclock : u.returnFromCall.dev.clockEnable = s.dev.clockEnable := by rw [hdev, clock]
    obtain rfl | ⟨v, rfl⟩ := eq <;> exact (kept hclock).elim
  | waits _ shown => exact (kept shown.clock).elim
  | halt call isHalt => exact .inr ⟨call, isHalt⟩

end Sys2Proof.Machine
end

section
/-! PROOFS. The loads and the stores (spec/41_data_movement.md R82 to R87). Every load ends in `State.loadFrom` and
every store in `State.storeTo`, at an address of ordinary memory, of a device register or of no memory; what these do there
is said once. What is left of an instruction is its word, its address and, for the indirect two, the read of the
pointer. -/

namespace Sys2Proof.Machine

/-! ### The memory primitives, by the kind of address -/

theorem memRead_unpopulated {s : State} {a : Word} (hdev : deviceAt a = none) (hram : s.isRam a = false) :
    s.memRead a = .error (.readUnpopulated a) := by
  simp [State.memRead, State.readNow, hdev, hram]

theorem memWrite_unpopulated {s : State} {a : Word} (v : Word) (hdev : deviceAt a = none) (hram : s.isRam a = false) :
    s.memWrite a v = .error (.writeUnpopulated a) := by
  simp [State.memWrite, State.writeNow, hdev, hram]

theorem memWrite_device {s : State} {a : Word} {d : Device} (v : Word) (hdev : deviceAt a = some d) :
    s.memWrite a v = s.gap.writeDevice d v := by
  simp [State.memWrite, State.writeNow, hdev]

theorem writeDevice_crtdr (s : State) (v : Word) : s.writeDevice .crtdr v =
    if s.dev.crtReady then .ok (s.display (v.extractLsb' 0 8)) else .error .crtNotReady := rfl

theorem writeDevice_mcr (s : State) (v : Word) : s.writeDevice .mcr v = .ok (s.writeMcr v) := rfl

/-- The three device registers a program only reads (R18, R20, R21). -/
theorem writeDevice_readOnly (s : State) (v : Word) {d : Device} (h : d = .crtsr ∨ d = .kbsr ∨ d = .kbdr) :
    s.writeDevice d v = .error (.writeReadOnly d) := by
  rcases h with rfl | rfl | rfl <;> rfl

/-! ### Loads -/

theorem loadFrom_of_memRead {s u : State} {a v : Word} (dr : Reg) (h : s.memRead a = .ok (v, u)) :
    s.loadFrom dr a = .next (u.result dr v) := by
  simp [State.loadFrom, h]

theorem loadFrom_of_refused {s : State} {a : Word} {r : Refusal} (dr : Reg) (h : s.memRead a = .error r) :
    s.loadFrom dr a = .refused r := by
  simp [State.loadFrom, h]

/-- An instruction that ends in a load, after reads that have changed the devices alone. -/
theorem loadsFrom_of_loadFrom {i : Instr} {s u : State} {a : Word} {dr : Reg} (k : SameCore s u)
    (h : exec i s = u.loadFrom dr a) : LoadsFrom i s u a dr := by
  have kgap : SameCore s u.gap := k.trans (gap_sameCore u)
  unfold LoadsFrom
  simp only [h]
  refine ⟨fun hord => ?_, fun d hdev => ?_, fun hdev hram => ?_⟩
  · have hread : u.memRead a = .ok (s.word a, u.gap) := by
      rw [memRead_ordinary (by rwa [k.ordinary]), k.word]
    exact ⟨_, loadFrom_of_memRead dr hread, State.result_resultIs kgap dr _⟩
  · exact ⟨_, loadFrom_of_memRead dr (memRead_device hdev),
      State.result_resultIs (kgap.trans (readDevice_sameCore _ d)) dr _⟩
  · exact loadFrom_of_refused dr (memRead_unpopulated hdev (by rwa [k.isRam]))

/-! ### Stores -/

theorem storeTo_of_memWrite {s u : State} {a v : Word} (h : s.memWrite a v = .ok u) :
    s.storeTo a v = .next u.advance := by
  simp [State.storeTo, h]

theorem storeTo_of_refused {s : State} {a v : Word} {r : Refusal} (h : s.memWrite a v = .error r) :
    s.storeTo a v = .refused r := by
  simp [State.storeTo, h]

theorem advance_pc_toNat {s u : State} (h : u.pc = s.pc) : u.advance.pc.toNat = (s.pc.toNat + 1) % 65536 := by
  rw [State.advance_pc, h]; exact s.nextPc_toNat

theorem setWord_storesWord {s u : State} (k : SameCore s u) (hs : s.MemoryCanonical) (a v : Word) :
    StoresWord s u (u.setWord a v).advance a v := by
  have hword (b : Word) : (u.setWord a v).advance.word b = if b = a then v else s.word b := by
    rw [State.advance_word, State.word_setWord (by rwa [k.mem]), k.word]
  exact ⟨by rw [hword, if_pos rfl], fun b hb => by rw [hword, if_neg hb], k.cc, advance_pc_toNat k.pc,
    fun r _ => k.x r, rfl, rfl, rfl, rfl⟩

theorem display_storesDevice {s u : State} (k : SameCore s u) (c : Byte) :
    StoresDevice s u (u.display c).advance
      { u.dev with crtOut := u.dev.crtOut ++ [c], crtReady := u.drawn.getLsbD 0 } :=
  ⟨rfl, rfl, k.params, k.cc, advance_pc_toNat k.pc, fun r _ => k.x r, k.word⟩

theorem writeMcr_storesDevice {s u : State} (k : SameCore s u) (v : Word) :
    StoresDevice s u (u.writeMcr v).advance
      { u.dev with clockEnable := v.getLsbD 15, mcrLow := v.extractLsb' 0 15, mcrWritten := true } := by
  refine ⟨?_, rfl, k.params, k.cc, advance_pc_toNat k.pc, fun r _ => k.x r, k.word⟩
  rw [State.advance_dev, State.writeMcr_dev, BitVec.msb_eq_getLsbD_last]

/-- An instruction that ends in a store, after reads that have changed the devices alone. -/
theorem storesTo_of_storeTo {i : Instr} {s u : State} {a v : Word} (k : SameCore s u)
    (h : exec i s = u.storeTo a v) : StoresTo i s u a v := by
  have kgap : SameCore s u.gap := k.trans (gap_sameCore u)
  unfold StoresTo
  simp only [h]
  refine ⟨fun hord hs => ?_, fun hdev hready => ?_, fun hdev hready => ?_, fun hdev => ?_, fun d hdev hd => ?_,
    fun hdev hram => ?_⟩
  · exact ⟨_, storeTo_of_memWrite (memWrite_ordinary (by rwa [k.ordinary])), setWord_storesWord kgap hs a v⟩
  · have hwrite : u.memWrite a v = .ok (u.gap.display (v.extractLsb' 0 8)) := by
      rw [memWrite_device v hdev, writeDevice_crtdr, if_pos hready]
    exact ⟨_, _, storeTo_of_memWrite hwrite, display_storesDevice kgap _⟩
  · refine storeTo_of_refused ?_
    rw [memWrite_device v hdev, writeDevice_crtdr, hready, if_neg Bool.false_ne_true]
  · have hwrite : u.memWrite a v = .ok (u.gap.writeMcr v) := by rw [memWrite_device v hdev, writeDevice_mcr]
    exact ⟨_, storeTo_of_memWrite hwrite, writeMcr_storesDevice kgap v⟩
  · exact storeTo_of_refused (by rw [memWrite_device v hdev, writeDevice_readOnly _ v hd])
  · exact storeTo_of_refused (memWrite_unpopulated v hdev (by rwa [k.isRam]))

/-! ### The pointer of an indirect access -/

section Pointer

variable {s u : State} {po : BitVec 9} {ptr : Word}

theorem exec_ldi_of_memRead (dr : Reg) (h : s.memRead (s.pageAddr po) = .ok (ptr, u)) :
    exec (.ldi dr po) s = u.loadFrom dr ptr := by
  simp [exec, execLdi, h]

theorem exec_sti_of_memRead (sr : Reg) (h : s.memRead (s.pageAddr po) = .ok (ptr, u)) :
    exec (.sti sr po) s = u.storeTo ptr (s.x sr) := by
  simp [exec, execSti, h]

end Pointer

/-! ### The six instructions -/

/-- Settles O23: a load at the page address of O20. -/
theorem ldResult : Obligations.LdResult := fun strict dr po s =>
  ⟨decode_encode strict (.ld dr po), pageAddressIsOnThePage s po, loadsFrom_of_loadFrom .rfl rfl⟩

/-- Settles O24: a load at the base+offset address of O21. -/
theorem ldrResult : Obligations.LdrResult := fun strict dr base off s =>
  ⟨decode_encode strict (.ldr dr base off), baseOffsetAddressIsTheSum s base off, loadsFrom_of_loadFrom .rfl rfl⟩

/-- Settles O25: the pointer read at the page address, then a load where it points. -/
theorem ldiResult : Obligations.LdiResult := by
  intro strict dr po s
  refine ⟨decode_encode strict (.ldi dr po), pageAddressIsOnThePage s po, fun hord => ?_, fun d hdev => ?_,
    fun hdev hram => ?_⟩
  · exact loadsFrom_of_loadFrom (gap_sameCore s) (exec_ldi_of_memRead dr (memRead_ordinary hord))
  · exact loadsFrom_of_loadFrom ((gap_sameCore s).trans (readDevice_sameCore _ d))
      (exec_ldi_of_memRead dr (memRead_device hdev))
  · simp [exec, execLdi, memRead_unpopulated hdev hram]

/-- Settles O26: a store at the page address of O20. -/
theorem stResult : Obligations.StResult := fun strict sr po s =>
  ⟨decode_encode strict (.st sr po), pageAddressIsOnThePage s po, storesTo_of_storeTo .rfl rfl⟩

/-- Settles O27: a store at the base+offset address of O21. -/
theorem strResult : Obligations.StrResult := fun strict sr base off s =>
  ⟨decode_encode strict (.str sr base off), baseOffsetAddressIsTheSum s base off, storesTo_of_storeTo .rfl rfl⟩

/-- Settles O28: the pointer read at the page address, then a store where it points. -/
theorem stiResult : Obligations.StiResult := by
  intro strict sr po s
  refine ⟨decode_encode strict (.sti sr po), pageAddressIsOnThePage s po, fun hord => ?_, fun d hdev => ?_,
    fun hdev hram => ?_⟩
  · exact storesTo_of_storeTo (gap_sameCore s) (exec_sti_of_memRead sr (memRead_ordinary hord))
  · exact storesTo_of_storeTo ((gap_sameCore s).trans (readDevice_sameCore _ d))
      (exec_sti_of_memRead sr (memRead_device hdev))
  · simp [exec, execSti, memRead_unpopulated hdev hram]

end Sys2Proof.Machine
end

section
/-! PROOFS. The five device registers and the devices behind them (spec/10_state.md R18 to R22; spec/60_exceptions.md
R166, R167). -/

namespace Sys2Proof.Machine

/-! ### The registers, each at its address -/

/-- Settles O29: the ready bit over a free value, and a register a program only reads. -/
theorem crtsrAccess : Obligations.CrtsrAccess := fun _ v =>
  ⟨⟨_, memRead_device (d := .crtsr) rfl⟩, memWrite_device (d := .crtsr) v rfl⟩

/-- Settles O30: what the ready bit decides is the write. -/
theorem crtdrAccess : Obligations.CrtdrAccess := by
  intro s v
  have hwrite : s.memWrite 0xF3FF#16 v = s.gap.writeDevice .crtdr v := memWrite_device v rfl
  rw [hwrite, writeDevice_crtdr]
  refine ⟨fun hready => ⟨_, if_pos hready⟩, fun hready => ?_, ⟨_, memRead_device (d := .crtdr) rfl⟩⟩
  rw [hready, if_neg Bool.false_ne_true]

/-- Settles O31: as O29. -/
theorem kbsrAccess : Obligations.KbsrAccess := fun _ v =>
  ⟨⟨_, memRead_device (d := .kbsr) rfl⟩, memWrite_device (d := .kbsr) v rfl⟩

/-- The ready bit after a read is never set by the read (R166). -/
theorem kbReadyAfterRead_imp {s : State} {x : Word} (h : s.kbReadyAfterRead x = true) : s.dev.kbReady = true := by
  unfold State.kbReadyAfterRead at h
  split at h
  · exact (Bool.and_eq_true_iff.1 h).1
  · cases h
  · exact h

theorem kbReadyAfterRead_always {s : State} (x : Word) (h : s.params.kbdClearOnRead = .always) :
    s.kbReadyAfterRead x = false := by
  rw [State.kbReadyAfterRead, h]

theorem kbReadyAfterRead_never {s : State} (x : Word) (h : s.params.kbdClearOnRead = .never) :
    s.kbReadyAfterRead x = s.dev.kbReady := by
  rw [State.kbReadyAfterRead, h]

/-- Settles O32: the read draws two free values, the second for the ready bit. -/
theorem kbdrAccess : Obligations.KbdrAccess := by
  intro s v
  refine ⟨⟨_, s.gap.kbReadyAfterRead s.gap.afterDraw.drawn, memRead_device (d := .kbdr) rfl, kbReadyAfterRead_imp,
    fun h => ?_, fun h => ?_⟩, memWrite_device (d := .kbdr) v rfl⟩
  · exact kbReadyAfterRead_always _ (by rwa [gap_params])
  · exact kbReadyAfterRead_never _ (by rwa [gap_params])

theorem readDevice_mcr (s : State) : s.readDevice .mcr =
    if s.dev.mcrWritten then (BitVec.ofBool s.dev.clockEnable ++ s.dev.mcrLow, s)
    else (BitVec.ofBool s.dev.clockEnable ++ s.drawn.extractLsb' 0 15, s.afterDraw) := rfl

/-- Settles O33: what `mcrWritten` decides is the read. -/
theorem mcrAccess : Obligations.McrAccess := by
  intro s v
  have hread : s.memRead 0xF402#16 = .ok (s.gap.readDevice .mcr) := memRead_device rfl
  rw [hread, readDevice_mcr, memWrite_device (d := .mcr) v rfl, writeDevice_mcr, State.writeMcr,
    BitVec.msb_eq_getLsbD_last]
  exact ⟨rfl, fun hwritten => by rw [if_pos hwritten],
    fun hwritten => ⟨_, by rw [hwritten, if_neg Bool.false_ne_true]⟩⟩

/-! ### What the devices do in a gap -/

theorem gap_of_env {s : State} {es : List DeviceEvent} {rest : List (List DeviceEvent)} (h : s.env = es :: rest) :
    s.gap = State.deviceSteps { s with env := rest } es := by
  rw [State.gap, h]

theorem lastKey_eq_none_iff {es : List DeviceEvent} : lastKey es = none ↔ ∀ c, DeviceEvent.key c ∉ es := by
  rw [← Option.not_isSome_iff_eq_none, lastKey_isSome, not_exists]

theorem lastKey_append_key {after : List DeviceEvent} (before : List DeviceEvent) (c : Byte)
    (h : ∀ d, DeviceEvent.key d ∉ after) : lastKey (before ++ .key c :: after) = some c := by
  induction before with
  | nil => simp [lastKey, lastKey_eq_none_iff.2 h]
  | cons e before ih => cases e <;> simp [lastKey, ih]

/-- Settles O34: the keyboard holds the last key of the gap, which is `c`. -/
theorem lastKeyTypedIsHeld : Obligations.LastKeyTypedIsHeld := by
  intro s before after c rest henv hafter
  have hlast : lastKey (before ++ .key c :: after) = some c :=
    lastKey_append_key before c fun d hd => hafter _ hd d rfl
  refine ⟨?_, ?_, by rw [gap_env, henv, List.tail_cons]⟩
  · rw [gap_of_env henv, deviceSteps_kbChar, hlast, Option.getD_some]
  · rw [gap_of_env henv, deviceSteps_kbReady]
    exact .inr ⟨c, by simp⟩

theorem deviceSteps_mcr (es : List DeviceEvent) (s : State) :
    (s.deviceSteps es).dev.mcrLow = s.dev.mcrLow ∧ (s.deviceSteps es).dev.mcrWritten = s.dev.mcrWritten := by
  induction es generalizing s with
  | nil => exact ⟨rfl, rfl⟩
  | cons e es ih =>
    obtain ⟨hlow, hwritten⟩ := ih (s.deviceStep e)
    cases e <;> exact ⟨hlow, hwritten⟩

theorem gap_mcr (s : State) : s.gap.dev.mcrLow = s.dev.mcrLow ∧ s.gap.dev.mcrWritten = s.dev.mcrWritten := by
  unfold State.gap
  split
  · exact ⟨s.idle_mcrLow, s.idle_mcrWritten⟩
  · exact deviceSteps_mcr _ _

/-- Settles O35: a gap is a list of device events, and an event of one device leaves the other alone. -/
theorem devicesChangeOnlyTheirRegisters : Obligations.DevicesChangeOnlyTheirRegisters := by
  refine ⟨fun s => ⟨gap_regs s, gap_pc s, gap_cc s, gap_mem s, gap_params s, gap_draws s, gap_clockEnable s,
    (gap_mcr s).1, (gap_mcr s).2, gap_crtOut s⟩, fun s es rest henv => ⟨fun hcrt => ?_, fun hkey => ?_⟩⟩
  · rw [gap_of_env henv, Bool.eq_iff_iff, deviceSteps_crtReady]
    exact or_iff_left hcrt
  · rw [gap_of_env henv]
    exact deviceSteps_keyboardKept _ hkey

end Sys2Proof.Machine
end

section
/-! PROOFS. The step (spec/00_scope.md R8; spec/20_memory.md R43; spec/30_encoding.md R54; spec/60_exceptions.md R160,
R168) and the launch state (spec/10_state.md R14, R26). -/

namespace Sys2Proof.Machine

/-! ### The step, by what the fetch and the decoder answer -/

theorem step_of_running {s : State} (h : s.dev.clockEnable = true) : step s = runInstruction s.gap := by
  rw [step, if_pos h]

theorem step_of_stopped {s : State} (h : s.dev.clockEnable = false) : step s = .fault .clockStopped := by
  rw [step, h, if_neg Bool.false_ne_true]

/-- The gap before the fetch leaves the word at the PC. -/
theorem gap_fetch_of_ordinary {s : State} (h : s.ordinary s.pc = true) : s.gap.fetch = .ok (s.word s.pc) := by
  have hord : s.gap.ordinary s.gap.pc = true := by rwa [gap_pc, (gap_sameCore s).ordinary]
  rw [fetch_of_ordinary hord, gap_word, gap_pc]

theorem runInstruction_of_decode {s : State} {w : Word} {i : Instr} (hf : s.fetch = .ok w)
    (hd : decode s.params.strictDecode w = .ok i) : runInstruction s = exec i s := by
  simp [runInstruction, hf, hd]

theorem runInstruction_of_noEncoding {s : State} {w : Word} {why : Invalid} (hf : s.fetch = .ok w)
    (hd : decode s.params.strictDecode w = .error why) : runInstruction s = .refused (.noEncoding why) := by
  simp [runInstruction, hf, hd]

theorem runInstruction_of_refused {s : State} {r : Refusal} (hf : s.fetch = .error r) :
    runInstruction s = .refused r := by
  simp [runInstruction, hf]

/-- Settles O6: the gap changes nothing that the fetch and the decoder look at. -/
theorem stepRunsTheDecodedInstruction : Obligations.StepRunsTheDecodedInstruction := by
  intro s i hclock hord hdec
  refine ⟨?_, gap_regs s, gap_pc s, gap_cc s, gap_mem s, gap_params s⟩
  rw [step_of_running hclock]
  exact runInstruction_of_decode (gap_fetch_of_ordinary hord) (by rwa [gap_params])

/-- Settles O7: a word outside the table violates the fixed bits of a row, and the decoder names the row. -/
theorem stepRefusesWordOutsideTheTable : Obligations.StepRefusesWordOutsideTheTable := by
  intro s hclock hord hstrict hout
  obtain ⟨why, hwhy⟩ := Option.isSome_iff_exists.1 ((outsideTable_iff _).1 hout)
  refine ⟨why, hwhy, ?_⟩
  rw [step_of_running hclock]
  refine runInstruction_of_noEncoding (gap_fetch_of_ordinary hord) ?_
  rw [gap_params, hstrict]
  exact (decode_true_eq_error_iff _ why).2 hwhy

theorem step_of_pc_device {s : State} {d : Device} (hclock : s.dev.clockEnable = true) (hdev : deviceAt s.pc = some d) :
    step s = .refused (.fetchFromDevice d) := by
  rw [step_of_running hclock]
  exact runInstruction_of_refused (by simp [State.fetch, hdev])

/-- Settles O8: each of the five addresses has its device register. -/
theorem fetchFromDeviceRefused : Obligations.FetchFromDeviceRefused := by
  intro s hclock hpc
  have hdev : ∃ d, deviceAt s.pc = some d := by
    rcases hpc with hpc | hpc | hpc | hpc | hpc <;> rw [hpc] <;> exact ⟨_, rfl⟩
  obtain ⟨d, hdev⟩ := hdev
  exact ⟨d, hdev, step_of_pc_device hclock hdev⟩

/-! ### No instruction faults -/

section NoFault

variable (s : State) (f : Fault)

theorem loadFrom_ne_fault (dr : Reg) (a : Word) : s.loadFrom dr a ≠ .fault f := by
  unfold State.loadFrom; split <;> nofun

theorem storeTo_ne_fault (a v : Word) : s.storeTo a v ≠ .fault f := by
  unfold State.storeTo; split <;> nofun

theorem execLdi_ne_fault (dr : Reg) (po : BitVec 9) : execLdi dr po s ≠ .fault f := by
  unfold execLdi
  split
  · nofun
  · exact loadFrom_ne_fault _ f _ _

theorem execSti_ne_fault (sr : Reg) (po : BitVec 9) : execSti sr po s ≠ .fault f := by
  unfold execSti
  split
  · nofun
  · exact storeTo_ne_fault _ f _ _

theorem execJsrr_ne_fault (base : Reg) (off : BitVec 6) : execJsrr base off s ≠ .fault f := by
  unfold execJsrr; split <;> nofun

theorem execRti_ne_fault : execRti s ≠ .fault f := by
  unfold execRti
  split
  · nofun
  · split
    · nofun
    · split <;> nofun

theorem trapEntry_ne_fault (vec : BitVec 8) : s.trapEntry vec ≠ .fault f := by
  unfold State.trapEntry; split <;> nofun

theorem callOutcome_ne_fault (r : Except CallStop State) : s.callOutcome r ≠ .fault f := by
  unfold State.callOutcome; split <;> nofun

theorem serviceCall_ne_fault (vec : BitVec 8) : s.serviceCall vec ≠ .fault f := by
  unfold State.serviceCall
  split_ifs
  · exact callOutcome_ne_fault s f _
  · exact callOutcome_ne_fault s f _
  · exact callOutcome_ne_fault s f _
  · exact callOutcome_ne_fault s f _
  · nofun
  · nofun

theorem execTrap_ne_fault (vec : BitVec 8) : execTrap vec s ≠ .fault f := by
  unfold execTrap
  split
  · exact trapEntry_ne_fault s f vec
  · exact serviceCall_ne_fault s f vec

theorem exec_ne_fault (i : Instr) : exec i s ≠ .fault f := by
  cases i with
  | br | addR | addI | jmp | jsr | andR | andI | notR | jmpr | ret | lea => nofun
  | ld | ldr => exact loadFrom_ne_fault s f _ _
  | st | str => exact storeTo_ne_fault s f _ _
  | ldi => exact execLdi_ne_fault s f _ _
  | sti => exact execSti_ne_fault s f _ _
  | jsrr => exact execJsrr_ne_fault s f _ _
  | rti => exact execRti_ne_fault s f
  | trap => exact execTrap_ne_fault s f _

theorem runInstruction_ne_fault : runInstruction s ≠ .fault f := by
  unfold runInstruction
  split
  · nofun
  · split
    · nofun
    · exact exec_ne_fault s f _

end NoFault

/-- Settles O9: a running machine runs an instruction, which does not fault. -/
theorem onlyAStoppedMachineFaults : Obligations.OnlyAStoppedMachineFaults := by
  refine ⟨fun s f => ⟨fun h => ?_, fun h => step_of_stopped h⟩, fun i s f => exec_ne_fault s f i⟩
  rw [← Bool.not_eq_true]
  intro hclock
  rw [step_of_running hclock] at h
  exact runInstruction_ne_fault _ f h

/-! ### The launch state -/

/-- Settles O11: each value is a field of `State.reset`; with no range named, every address is populated. -/
theorem resetIsALaunchState : Obligations.ResetIsALaunchState :=
  ⟨⟨rfl, rfl, rfl, rfl, rfl⟩, rfl, rfl, rfl, rfl, rfl, rfl, rfl, rfl, fun _ => rfl⟩

/-- Settles O12: each value is a field of `State.reset`; an address memory does not list holds x0000. -/
theorem resetChosenValues : Obligations.ResetChosenValues :=
  ⟨fun r => by cases r <;> rfl, fun _ => rfl, rfl, rfl, rfl, rfl⟩

/-- Settles O13: the empty list is canonical. -/
theorem resetMemoryCanonical : Obligations.ResetMemoryCanonical := State.reset_mem_canonical

/-- Settles O14: the sign and the zero of the value are told apart as integers, and one of the three holds. -/
theorem setccDescribesTheValue : Obligations.SetccDescribesTheValue := fun v =>
  ⟨CC.ofWord_codesOf v, CC.ofWord_oneHot v⟩

end Sys2Proof.Machine
end

section
/-! PROOFS. The control instructions that can be refused: JSRR (spec/42_control.md R104), RTI (R106) and TRAP by the
hardware rule (spec/43_trap.md R120). -/

namespace Sys2Proof.Machine

/-! ### JSRR -/

theorem jsrrTarget_of_ne {s : State} {base : Reg} (off : BitVec 6) (h : base ≠ .r7) :
    s.jsrrTarget base off = some (s.baseAddr base off) := if_neg h

theorem jsrrTarget_r7 (s : State) (off : BitVec 6) :
    s.jsrrTarget .r7 off = s.params.jsrrR7.map (s.jsrrThroughR7 off) := rfl

theorem exec_jsrr_of_target {s : State} {base : Reg} {off : BitVec 6} {v : Word}
    (h : s.jsrrTarget base off = some v) : exec (.jsrr base off) s = .next (s.link v) := by
  simp [exec, execJsrr, h]

theorem jsrrThroughR7_new_toNat (s : State) (off : BitVec 6) :
    (s.jsrrThroughR7 off .new).toNat = (s.pc.toNat + 1 + off.toNat) % 65536 := by
  rw [State.jsrrThroughR7, BitVec.toNat_add, offsetOperand_toNat, State.nextPc_toNat, Nat.mod_add_mod]

/-- Settles O40: through another base the target is that of O21; through R7 the launch parameter says. -/
theorem jsrrResult : Obligations.JsrrResult := by
  intro strict base off s
  refine ⟨decode_encode strict (.jsrr base off), fun hrun => ?_, fun hbase hpar => ?_⟩
  · by_cases hbase : base = .r7
    · subst hbase
      obtain ⟨j, hj⟩ := Option.ne_none_iff_exists'.1 (hrun.resolve_left fun h => h rfl)
      have htarget : s.jsrrTarget .r7 off = some (s.jsrrThroughR7 off j) := by rw [jsrrTarget_r7, hj]; rfl
      refine ⟨_, _, exec_jsrr_of_target htarget, State.link_linksTo .rfl _, fun hold => ?_, fun hnew => ?_⟩
      · obtain rfl : j = .old := by simpa [hj] using hold
        exact baseOffsetAddressIsTheSum s .r7 off
      · obtain rfl : j = .new := by simpa [hj] using hnew
        exact jsrrThroughR7_new_toNat s off
    · exact ⟨_, _, exec_jsrr_of_target (jsrrTarget_of_ne off hbase), State.link_linksTo .rfl _,
        fun _ => baseOffsetAddressIsTheSum s base off, fun ⟨hr7, _⟩ => absurd hr7 hbase⟩
  · subst hbase
    simp [exec, execJsrr, jsrrTarget_r7, hpar]

/-! ### RTI -/

/-- What one pop adds to the pointer: +1 or -1 (R106). -/
def popStep (r : RtiParams) : Word := if r.dir = .plus1 then 1#16 else 0xFFFF#16

/-- Where the first pop reads, given the pointer: before or after the pointer has moved (R106). -/
def firstPopAddr (r : RtiParams) (sp : Word) : Word := if r.moveFirst then sp + popStep r else sp

theorem popMoved_eq (r : RtiParams) (sp : Word) : popMoved r sp = sp + popStep r := by
  unfold popMoved popStep
  cases r.dir with
  | plus1 => rfl
  | minus1 => exact BitVec.sub_eq_add_neg sp 1#16

theorem popAddr_eq (r : RtiParams) (sp : Word) : popAddr r sp = firstPopAddr r sp := by
  rw [popAddr, firstPopAddr, popMoved_eq]

/-- The second pop reads one step past the first. -/
theorem firstPopAddr_add_popStep (r : RtiParams) (sp : Word) :
    firstPopAddr r (sp + popStep r) = firstPopAddr r sp + popStep r := by
  unfold firstPopAddr
  split <;> rfl

theorem Regs.set_set (g : Regs) (r : Reg) (v w : Word) : (g.set r v).set r w = g.set r w := by cases r <;> rfl

theorem State.setReg_setReg (s : State) (r : Reg) (v w : Word) : (s.setReg r v).setReg r w = s.setReg r w := by
  simp only [State.setReg, Regs.set_set]

theorem pop_of_memRead {s u : State} {r : RtiParams} {w : Word}
    (h : s.memRead (firstPopAddr r (s.x r.sp)) = .ok (w, u)) :
    s.pop r = .ok (w, u.setReg r.sp (s.x r.sp + popStep r)) := by
  simp only [State.pop, popAddr_eq, h, popMoved_eq]

theorem pop_of_refused {s : State} {r : RtiParams} {e : Refusal}
    (h : s.memRead (firstPopAddr r (s.x r.sp)) = .error e) : s.pop r = .error e := by
  simp only [State.pop, popAddr_eq, h]

/-- The second pop starts from the pointer moved once. -/
theorem pop_again_of_memRead {u v : State} {r : RtiParams} {sp w : Word}
    (h : u.memRead (firstPopAddr r sp + popStep r) = .ok (w, v)) :
    (u.setReg r.sp (sp + popStep r)).pop r = .ok (w, v.setReg r.sp (sp + popStep r + popStep r)) := by
  rw [pop_of_memRead (w := w) (u := v.setReg r.sp (sp + popStep r)), State.setReg_x_same, State.setReg_setReg]
  rw [State.setReg_x_same, firstPopAddr_add_popStep, memRead_setReg, h]
  rfl

theorem pop_again_of_refused {u : State} {r : RtiParams} {sp : Word} {e : Refusal}
    (h : u.memRead (firstPopAddr r sp + popStep r) = .error e) :
    (u.setReg r.sp (sp + popStep r)).pop r = .error e := by
  refine pop_of_refused ?_
  rw [State.setReg_x_same, firstPopAddr_add_popStep, memRead_setReg, h]
  rfl

section Rti

variable {s u1 u2 : State} {r : RtiParams} {w1 w2 : Word} {e : Refusal}

theorem exec_rti_of_none (h : s.params.rti = none) : exec .rti s = .refused .rtiNoConvention := by
  simp [exec, execRti, h]

theorem exec_rti_of_first_refused (h : s.params.rti = some r)
    (h1 : s.memRead (firstPopAddr r (s.x r.sp)) = .error e) : exec .rti s = .refused e := by
  simp [exec, execRti, h, pop_of_refused h1]

theorem exec_rti_of_reads (h : s.params.rti = some r)
    (h1 : s.memRead (firstPopAddr r (s.x r.sp)) = .ok (w1, u1))
    (h2 : u1.memRead (firstPopAddr r (s.x r.sp) + popStep r) = .ok (w2, u2)) :
    exec .rti s = .next ((u2.setReg r.sp (s.x r.sp + popStep r + popStep r)).restore r w1 w2) := by
  simp only [exec, execRti, h, pop_of_memRead h1, pop_again_of_memRead h2]

theorem exec_rti_of_second_refused (h : s.params.rti = some r)
    (h1 : s.memRead (firstPopAddr r (s.x r.sp)) = .ok (w1, u1))
    (h2 : u1.memRead (firstPopAddr r (s.x r.sp) + popStep r) = .error e) : exec .rti s = .refused e := by
  simp only [exec, execRti, h, pop_of_memRead h1, pop_again_of_refused h2]

end Rti

theorem memRead_eq_error {s : State} {a : Word} {e : Refusal} (h : s.memRead a = .error e) :
    e = .readUnpopulated a := by
  obtain ⟨d, -, hread⟩ | ⟨-, -, hread⟩ | ⟨-, -, hread⟩ := memRead_cases s a <;> rw [hread] at h <;> cases h
  rfl

/-- Settles O42: two reads, the pointer moved at each, then the PC and the codes from the words read. -/
theorem rtiResult : Obligations.RtiResult := by
  intro strict s
  refine ⟨decode_encode strict .rti, fun r hr w1 u1 w2 u2 hread1 hread2 => ?_⟩
  have k : SameCore s u2 := (memRead_sameCore (readsWord_memRead hread1)).trans
    (memRead_sameCore (readsWord_memRead hread2))
  refine ⟨_, exec_rti_of_reads hr (readsWord_memRead hread1) (readsWord_memRead hread2), State.restore_pc _ _ _ _,
    rfl, rfl, rfl, ?_, fun q hq => ?_, fun a => ?_, rfl, rfl, rfl, rfl⟩
  · rw [State.restore_x, State.setReg_x_same]; rfl
  · rw [State.restore_x, State.setReg_x, if_neg (List.mem_singleton.not.1 hq), k.x]
  · rw [State.restore_word, State.setReg_word, k.word]

/-- Settles O43: the two reads of the stack are all that RTI can be refused for. -/
theorem rtiRefusal : Obligations.RtiRefusal := by
  refine fun s => ⟨exec_rti_of_none, fun r hr => ⟨fun hnone => ?_, fun w1 u1 hread1 hdev hram => ?_, fun e he => ?_⟩⟩
  · obtain ⟨hdev, hram⟩ := hnone
    exact exec_rti_of_first_refused hr (memRead_unpopulated hdev hram)
  · have h1 := readsWord_memRead hread1
    have hram' := (memRead_sameCore h1).isRam _ ▸ hram
    exact exec_rti_of_second_refused hr h1 (memRead_unpopulated hdev hram')
  · cases h1 : s.memRead (firstPopAddr r (s.x r.sp)) with
    | error e1 =>
      obtain rfl : e1 = e := Host.Outcome.refused.inj ((exec_rti_of_first_refused hr h1).symm.trans he)
      exact .inl (memRead_eq_error h1)
    | ok p1 =>
      cases h2 : p1.2.memRead (firstPopAddr r (s.x r.sp) + popStep r) with
      | error e2 =>
        obtain rfl : e2 = e := Host.Outcome.refused.inj ((exec_rti_of_second_refused hr h1 h2).symm.trans he)
        exact .inr (memRead_eq_error h2)
      | ok p2 => exact nomatch (exec_rti_of_reads hr h1 h2).symm.trans he

/-! ### TRAP by the hardware rule -/

theorem vectorAddr_toNat (vec : BitVec 8) : (vectorAddr vec).toNat = vec.toNat :=
  BitVec.toNat_setWidth_of_le (by decide)

/-- The vector words stand below the device registers. -/
theorem deviceAt_vectorAddr (vec : BitVec 8) : deviceAt (vectorAddr vec) = none := by
  have hne (a : Word) (ha : 256 ≤ a.toNat) : vectorAddr vec ≠ a := by
    rintro rfl
    rw [vectorAddr_toNat] at ha
    exact absurd vec.isLt (Nat.not_lt.2 ha)
  simp [deviceAt, hne]

theorem exec_trap_of_hardware {s : State} (vec : BitVec 8) (h : s.params.trapMode = .hardware) :
    exec (.trap vec) s = s.trapEntry vec := by
  simp [exec, execTrap, h]

/-- Settles O44: the vector word is of ordinary memory, and is read in one gap. -/
theorem trapResult : Obligations.TrapResult := by
  intro strict vec s
  refine ⟨decode_encode strict (.trap vec), vectorAddr_toNat vec, fun hmode hram => ?_, fun hmode hram => ?_⟩
  · have hread := memRead_ordinary (ordinary_iff.2 ⟨deviceAt_vectorAddr vec, hram⟩)
    refine ⟨s.gap.link (s.word (vectorAddr vec)), ?_, State.link_linksTo (gap_sameCore s) _⟩
    rw [exec_trap_of_hardware vec hmode, State.trapEntry, hread]
  · rw [exec_trap_of_hardware vec hmode, State.trapEntry, memRead_unpopulated (deviceAt_vectorAddr vec) hram]

end Sys2Proof.Machine
end

section
/-! PROOFS. The assembler's operands: labels on the page and numbers in their ranges (spec/44_assembler.md R142 to
R144). -/

namespace Sys2Proof.Machine

/-! ### Labels -/

/-- Two addresses are on one page when they agree in bits [15:9]. -/
theorem extractLsb'_page_eq_iff (a b : Word) :
    a.extractLsb' 9 7 = b.extractLsb' 9 7 ↔ a.toNat / 512 = b.toNat / 512 := by
  rw [← BitVec.toNat_inj, extractLsb'_toNat_eq, extractLsb'_toNat_eq]
  omega

/-- An address is its page over its low 9 bits. -/
theorem onPage_low_bits {a ia : Word} (h : a.toNat / 512 = ia.toNat / 512) : onPage ia (a.extractLsb' 0 9) = a := by
  rw [← BitVec.toNat_inj, onPage_toNat, extractLsb'_toNat_eq]
  omega

/-- Settles O59: every line with a label takes the page offset of the label's address. -/
theorem labelOnThePageIsReached : Obligations.LabelOnThePageIsReached := by
  intro syms ia d l name ops form hform
  rw [assembleInstr_label hform]
  refine ⟨fun a ha => ⟨fun hpage => ?_, fun hpage => ?_⟩, fun hnone => ?_⟩
  · refine ⟨a.extractLsb' 0 9, ?_, fun s hpc hbase => ?_⟩
    · simp [labelOffset, ha, (extractLsb'_page_eq_iff a ia).2 hpage, Except.map]
    · rw [State.pageAddr_of_ia hbase, hpc, onPage_low_bits hpage]
  · simp [labelOffset, ha, (extractLsb'_page_eq_iff a ia).not.2 hpage, Except.map]
  · simp [labelOffset, hnone, Except.map]

/-! ### Numbers -/

theorem fieldIn_map_of_mem {lo hi n : Int} (w : Nat) (form : BitVec w → Instr) (h : lo ≤ n ∧ n ≤ hi) :
    (fieldIn lo hi w n).map form = .ok (form (BitVec.ofInt w n)) := by
  rw [fieldIn, if_pos h]; rfl

theorem fieldIn_map_of_not_mem {lo hi n : Int} (w : Nat) (form : BitVec w → Instr) (h : ¬(lo ≤ n ∧ n ≤ hi)) :
    (fieldIn lo hi w n).map form = .error .outOfRange := by
  rw [fieldIn, if_neg h]; rfl

/-- A number that fits in an unsigned field is the field's value. -/
theorem toNat_ofInt_of_lt {w : Nat} {n : Int} (h0 : 0 ≤ n) (h : n < 2 ^ w) : ((BitVec.ofInt w n).toNat : Int) = n := by
  rw [BitVec.toNat_ofInt, Int.natCast_pow, Nat.cast_ofNat, Int.emod_eq_of_lt h0 h, Int.toNat_of_nonneg h0]

/-- Settles O60: within its range a number is the value of its field. -/
theorem numericOperandRanges : Obligations.NumericOperandRanges := by
  intro syms ia d b n
  refine ⟨fun name ops form hform => ?_, fun name ops form hform => ?_, fun h => ?_, fun h => ?_⟩
  · rw [assembleInstr_imm5 hform]
    refine ⟨fun h => ⟨_, ?_, fieldIn_map_of_mem 5 form h⟩, fieldIn_map_of_not_mem 5 form⟩
    exact BitVec.toInt_ofInt_eq_self (by decide) (by omega) (by omega)
  · rw [assembleInstr_offset6 hform]
    exact ⟨fun h => ⟨_, toNat_ofInt_of_lt h.1 (by omega), fieldIn_map_of_mem 6 form h⟩, fieldIn_map_of_not_mem 6 form⟩
  · rw [assembleInstr_trap_num]
    exact ⟨_, toNat_ofInt_of_lt h.1 (by omega), fieldIn_map_of_mem 8 .trap h⟩
  · rw [assembleInstr_trap_num]
    exact fieldIn_map_of_not_mem 8 .trap h

end Sys2Proof.Machine
end

section
/-! PROOFS. The service calls of contract mode (spec/43_trap.md R123 to R129). What a call answers is what its waits,
its output and the read of its string answer (Laws/Calls); what is left is what a call leaves when it returns. -/

namespace Sys2Proof.Machine

/-! ### Which call a vector makes -/

section Calls

variable {s : State}

theorem exec_trap_of_contract (vec : BitVec 8) (h : s.params.trapMode = .contract) :
    exec (.trap vec) s = s.serviceCall vec := by
  simp [exec, execTrap, h]

theorem exec_getc (h : s.params.trapMode = .contract) : exec (.trap 0x20#8) s = s.callOutcome s.callGetc :=
  exec_trap_of_contract _ h

theorem exec_out (h : s.params.trapMode = .contract) : exec (.trap 0x21#8) s = s.callOutcome s.callOut :=
  exec_trap_of_contract _ h

theorem exec_puts (h : s.params.trapMode = .contract) : exec (.trap 0x22#8) s = s.callOutcome s.callPuts :=
  exec_trap_of_contract _ h

theorem exec_in (h : s.params.trapMode = .contract) : exec (.trap 0x23#8) s = s.callOutcome s.callIn :=
  exec_trap_of_contract _ h

theorem exec_halt (h : s.params.trapMode = .contract) : exec (.trap 0x25#8) s = .next s.callHalt :=
  exec_trap_of_contract _ h

theorem callOutcome_ok (t : State) : s.callOutcome (.ok t) = .next t := rfl

theorem callOutcome_hang : s.callOutcome (.error .hang) = .next s := rfl

theorem callOutcome_runsOn (t : State) : s.callOutcome (.error (.runsOn t)) = .next t := rfl

theorem callOutcome_refused (r : Refusal) : s.callOutcome (.error (.refused r)) = .refused r := rfl

theorem returnFromCall_dev (u : State) : u.returnFromCall.dev = u.dev := by
  obtain ⟨-, -, -, -, hdev, -⟩ := returnFromCall_spec u
  exact hdev

theorem returnFromCall_x_r0 (u : State) : u.returnFromCall.x .r0 = u.x .r0 := by
  obtain ⟨-, -, hr0, -⟩ := returnFromCall_spec u
  exact hr0

end Calls

/-! ### GETC and OUT -/

/-- Settles O45: the call is the wait for a key, then the return with the key in R0. -/
theorem getcContract : Obligations.GetcContract := by
  intro s hmode
  rw [exec_getc hmode]
  refine ⟨fun hkey => ?_, fun hkey => ?_⟩
  · obtain ⟨c, u, htake, htaken⟩ := takeKey_total hkey
    obtain ⟨hcore, hout, -, hready, -⟩ := takeKey_ok htake
    refine ⟨u.returnFromCall.setReg .r0 (c.setWidth 16), c, by simp only [State.callGetc, htake, callOutcome_ok],
      htaken, fun hquiet => keyTaken_of_noKeys hquiet htaken, (returnFromCall_returned hcore _).2,
      State.setReg_x_same _ _ _, ?_, ?_⟩
    · rw [State.setReg_dev, returnFromCall_dev, hout]
    · rw [State.setReg_dev, returnFromCall_dev, hready]
  · simp only [State.callGetc, takeKey_hang hkey, callOutcome_hang]

/-- Settles O46: the call is the wait for the CRT and the display of one character, then the return. -/
theorem outContract : Obligations.OutContract := by
  intro s hmode
  rw [exec_out hmode]
  refine ⟨fun hcrt => ?_, fun hcrt => ?_⟩
  · obtain ⟨u, hemit⟩ := emitChar_total hcrt ((s.x .r0).extractLsb' 0 8)
    obtain ⟨hcore, hout, -⟩ := emitChar_ok hemit
    refine ⟨u.returnFromCall, by simp only [State.callOut, hemit, callOutcome_ok], (returnFromCall_returned hcore 0).1,
      ?_, ?_⟩
    · rw [returnFromCall_x_r0, hcore.x]
    · rw [returnFromCall_dev, hout]
  · simp only [State.callOut, emitChar_hang hcrt, callOutcome_hang]

/-! ### The string R0 points to -/

section Strings

variable {s : State} {ws : List Word}

/-- Where the string ends in ordinary memory its display hangs or completes; keys come afterwards as they did before,
and a CRT that never comes still does not. -/
theorem emitStringR0_of_holdsString (h : HoldsString s (s.x .r0) ws) (hl : ws.length < 65536) :
    s.emitStringR0 = .error .hang ∨
    ∃ u, s.emitStringR0 = .ok u ∧ (KeyComes u ↔ KeyComes s) ∧ (¬CrtComes s → ws = [] ∧ ¬CrtComes u) := by
  obtain ⟨t, hread, -, -, hkey, hcrt, -⟩ := stringAt_total h hl
  obtain ⟨u, hemit⟩ | hemit := emit_cases (charsOf ws) t
  · refine .inr ⟨u, by simp [State.emitStringR0, hread, hemit], (emit_keyComes hemit).trans hkey, fun hnever => ?_⟩
    obtain rfl : ws = [] := by
      by_contra hne
      have hhang : t.emit (charsOf ws) = .error .hang :=
        emit_hang (fun k => hnever (hcrt.1 k)) (mt List.map_eq_nil_iff.1 hne)
      exact nomatch hemit.symm.trans hhang
    obtain rfl : t = u := Except.ok.inj hemit
    exact ⟨rfl, fun k => hnever (hcrt.1 k)⟩
  · exact .inl (by simp only [State.emitStringR0, hread, hemit])

/-- A call that does no more than its string, where the string does not end in ordinary memory. -/
theorem stringStops_of_error {i : Instr}
    (h : ∀ e, s.emitStringR0 = .error e → exec i s = s.callOutcome (.error e)) : StringStops i s := by
  refine ⟨fun ws hws hl hdev hram => ?_, fun hfull => ?_⟩
  · have hrefused : s.emitStringR0 = .error (.refused (.readUnpopulated (s.x .r0 + BitVec.ofNat 16 ws.length))) := by
      simp only [State.emitStringR0, stringAt_refused hws hl hdev hram]
    rw [h _ hrefused, callOutcome_refused]
  · obtain ⟨ws, t, d, u, hl, hreads, hdev, hzero⟩ | ⟨ws, t, hl, hreads⟩ :=
      readsNonzero_endless (n := 65536) (a := s.x .r0) hfull
    · exact .inl ⟨ws, t, d, u, hl, hreads, hdev, hzero, stringAt_ended hreads hl hzero⟩
    · obtain ⟨hpass, hhang⟩ := emitStringR0_pass hreads hl
      refine .inr ⟨ws, t, hl, hreads, fun hserves => ?_, fun hnever => ?_⟩
      · obtain ⟨u, hruns, hcore, hout⟩ := hpass hserves
        exact ⟨u, by rw [h _ hruns, callOutcome_runsOn], hout, hcore.pc, hcore.cc, hcore.params, fun r _ => hcore.x r,
          hcore.word⟩
      · rw [h _ (hhang hnever), callOutcome_hang]

theorem callPuts_of_error {e : CallStop} (h : s.emitStringR0 = .error e) : s.callPuts = .error e := by
  simp only [State.callPuts, h]

theorem callIn_of_error {e : CallStop} (h : s.emitStringR0 = .error e) : s.callIn = .error e := by
  simp only [State.callIn, h]

/-- After its prompt IN hangs where no key comes, or where the CRT does not come for the echo. -/
theorem callIn_hang_of_prompt {u : State} (h : s.emitStringR0 = .ok u) (hnot : ¬KeyComes u ∨ ¬CrtComes u) :
    s.callIn = .error .hang := by
  by_cases hkey : KeyComes u
  · obtain ⟨c, v, htake, -⟩ := takeKey_total hkey
    have hcrt : ¬CrtComes v := fun k => hnot.elim (fun hk => hk hkey) fun hc => hc ((takeKey_crtComes htake).1 k)
    simp only [State.callIn, h, htake, emitChar_hang hcrt]
  · simp only [State.callIn, h, takeKey_hang hkey]

/-- After its prompt IN takes the key and echoes it, where both come. -/
theorem callIn_of_prompt {u : State} (h : s.emitStringR0 = .ok u) (hkey : KeyComes u) (hcrt : CrtComes u) :
    ∃ c v, keyTaken u = some c ∧ SameCore u v ∧ v.dev.crtOut = u.dev.crtOut ++ [c] ∧
      s.callIn = .ok (v.returnFromCall.setReg .r0 (c.setWidth 16)) := by
  obtain ⟨c, t, htake, htaken⟩ := takeKey_total hkey
  obtain ⟨hcore, hout, -⟩ := takeKey_ok htake
  obtain ⟨v, hemit⟩ := emitChar_total ((takeKey_crtComes htake).2 hcrt) c
  obtain ⟨hcore', hout', -⟩ := emitChar_ok hemit
  exact ⟨c, v, htaken, hcore.trans hcore', by rw [hout', hout], by simp only [State.callIn, h, htake, hemit]⟩

end Strings

/-! ### PUTS and IN -/

/-- Settles O47: the call is the display of its string, then the return. -/
theorem putsContract : Obligations.PutsContract := by
  intro s hmode
  rw [exec_puts hmode]
  refine ⟨fun ws hws hl => ⟨fun hserves => ?_, fun hne hnever => ?_⟩,
    stringStops_of_error fun e he => by rw [exec_puts hmode, callPuts_of_error he]⟩
  · obtain ⟨u, hemit, -, hcore, hout, -⟩ := emitStringR0_total (n := 0) hws hl hserves
    refine ⟨u.returnFromCall, by simp only [State.callPuts, hemit, callOutcome_ok], (returnFromCall_returned hcore 0).1,
      ?_, ?_⟩
    · rw [returnFromCall_x_r0, hcore.x]
    · rw [returnFromCall_dev, hout]
  · obtain hhang | ⟨u, -, -, hstill⟩ := emitStringR0_of_holdsString hws hl
    · rw [callPuts_of_error hhang, callOutcome_hang]
    · exact absurd (hstill hnever).1 hne

/-- Settles O48: the call is the display of its prompt, a key taken, its echo, then the return with the key in R0. -/
theorem inContract : Obligations.InContract := by
  intro s hmode
  rw [exec_in hmode]
  refine ⟨fun ws hws hl => ⟨fun hserves hkey => ?_, fun hnot => ?_⟩,
    stringStops_of_error fun e he => by rw [exec_in hmode, callIn_of_error he]⟩
  · obtain ⟨u, hprompt, hserves', hcore, hout, hkeys, hquiet⟩ := emitStringR0_total (n := 1) hws hl hserves
    obtain ⟨c, v, htaken, hcore', hout', hcall⟩ :=
      callIn_of_prompt hprompt (hkeys.2 hkey) (crtServes_emitChar hserves').1
    refine ⟨v.returnFromCall.setReg .r0 (c.setWidth 16), u, c, by rw [hcall, callOutcome_ok], hprompt, htaken,
      fun hno => ?_, (returnFromCall_returned (hcore.trans hcore') _).2, State.setReg_x_same _ _ _, ?_⟩
    · exact (keyTaken_of_noKeys (hquiet hno).quiet htaken).trans (hquiet hno).char
    · rw [State.setReg_dev, returnFromCall_dev, hout', hout]
  · obtain hhang | ⟨u, hprompt, hkeys, hstill⟩ := emitStringR0_of_holdsString hws hl
    · rw [callIn_of_error hhang, callOutcome_hang]
    · have hnot' : ¬KeyComes u ∨ ¬CrtComes u := hnot.imp (fun h k => h (hkeys.1 k)) fun h => (hstill h).2
      rw [callIn_hang_of_prompt hprompt hnot', callOutcome_hang]

/-! ### HALT and the other vectors -/

/-- Settles O49: HALT leaves the clock enable bit 0, where a machine has no step. -/
theorem haltContract : Obligations.HaltContract := by
  intro s hmode
  obtain ⟨hout, hclock, hr7, hr0, -, -, -, hkeep⟩ := callHalt_spec s
  refine ⟨s.callHalt, _, exec_halt hmode, hout, hclock, step_of_stopped hclock, hr7, hr0, fun hos => ?_⟩
  obtain ⟨hmem, hregs⟩ := hkeep hos
  exact ⟨fun r hr => hregs r (List.mem_singleton.not.1 hr), fun a => by rw [State.word, hmem, State.word]⟩

/-- Settles O50: a vector of another number makes none of the five calls. -/
theorem otherVectorsHaveNoService : Obligations.OtherVectorsHaveNoService := by
  intro vec s hmode hvec
  simp only [List.mem_cons, List.not_mem_nil, or_false, not_or] at hvec
  obtain ⟨h20, h21, h22, h23, h25⟩ := hvec
  have hne (v : BitVec 8) (h : vec.toNat ≠ v.toNat) : vec ≠ v := fun k => h (congrArg BitVec.toNat k)
  rw [exec_trap_of_contract vec hmode, State.serviceCall, if_neg (hne 0x20#8 h20), if_neg (hne 0x21#8 h21),
    if_neg (hne 0x22#8 h22), if_neg (hne 0x23#8 h23), if_neg (hne 0x25#8 h25)]

end Sys2Proof.Machine
end

section
/-! PROOFS. No instruction but BR reads the condition codes (spec/10_state.md R16). The devices, the memory primitives
and the waits of a service call carry the codes along unread; where an instruction ends it keeps them, or writes over
them. -/

namespace Sys2Proof.Machine

/-! ### The devices and memory -/

/-- The machine with other codes. -/
def State.withCodes (s : State) (c : CC) : State := { s with cc := c }

section WithCodes

variable (s : State) (c : CC)

@[simp] theorem State.withCodes_params : (s.withCodes c).params = s.params := rfl
@[simp] theorem State.withCodes_env : (s.withCodes c).env = s.env := rfl
@[simp] theorem State.withCodes_dev : (s.withCodes c).dev = s.dev := rfl
@[simp] theorem State.withCodes_x (r : Reg) : (s.withCodes c).x r = s.x r := rfl
@[simp] theorem State.withCodes_isRam (a : Word) : (s.withCodes c).isRam a = s.isRam a := rfl
@[simp] theorem State.withCodes_ordinary (a : Word) : (s.withCodes c).ordinary a = s.ordinary a := rfl
@[simp] theorem State.withCodes_pageAddr (po : BitVec 9) : (s.withCodes c).pageAddr po = s.pageAddr po := rfl
@[simp] theorem State.withCodes_jsrrTarget (base : Reg) (off : BitVec 6) :
    (s.withCodes c).jsrrTarget base off = s.jsrrTarget base off := rfl

theorem deviceSteps_withCodes (es : List DeviceEvent) :
    (s.withCodes c).deviceSteps es = (s.deviceSteps es).withCodes c := by
  induction es generalizing s with
  | nil => rfl
  | cons e es ih =>
    have hstep : (s.withCodes c).deviceStep e = (s.deviceStep e).withCodes c := by cases e <;> rfl
    simp only [State.deviceSteps, List.foldl_cons, hstep]
    exact ih (s.deviceStep e)

theorem idle_withCodes : (s.withCodes c).idle = s.idle.withCodes c := by
  unfold State.idle
  rw [State.withCodes_params]
  split <;> rfl

theorem gap_withCodes : (s.withCodes c).gap = s.gap.withCodes c := by
  unfold State.gap
  rw [State.withCodes_env]
  split
  · exact idle_withCodes s c
  · exact deviceSteps_withCodes { s with env := _ } c _

theorem readDevice_withCodes (d : Device) :
    (s.withCodes c).readDevice d = ((s.readDevice d).1, (s.readDevice d).2.withCodes c) := by
  cases d with
  | mcr =>
    rw [readDevice_mcr, readDevice_mcr, State.withCodes_dev]
    split <;> rfl
  | crtsr | crtdr | kbsr | kbdr => rfl

theorem memRead_withCodes (a : Word) :
    (s.withCodes c).memRead a = (s.memRead a).map fun p => (p.1, p.2.withCodes c) := by
  unfold State.memRead State.readNow
  rw [gap_withCodes]
  split
  · exact congrArg Except.ok (readDevice_withCodes _ c _)
  · rw [State.withCodes_isRam]
    split <;> rfl

theorem writeDevice_withCodes (d : Device) (v : Word) :
    (s.withCodes c).writeDevice d v = (s.writeDevice d v).map (·.withCodes c) := by
  cases d with
  | crtdr =>
    rw [writeDevice_crtdr, writeDevice_crtdr, State.withCodes_dev]
    split <;> rfl
  | crtsr | kbsr | kbdr | mcr => rfl

theorem memWrite_withCodes (a v : Word) : (s.withCodes c).memWrite a v = (s.memWrite a v).map (·.withCodes c) := by
  unfold State.memWrite State.writeNow
  rw [gap_withCodes]
  split
  · exact writeDevice_withCodes _ c _ v
  · rw [State.withCodes_isRam]
    split <;> rfl

/-! ### The ends of instructions -/

theorem loadFrom_withCodes (dr : Reg) (a : Word) : (s.withCodes c).loadFrom dr a = s.loadFrom dr a := by
  unfold State.loadFrom
  rw [memRead_withCodes]
  cases s.memRead a <;> rfl

theorem storeTo_withCodes (a v : Word) : (s.withCodes c).storeTo a v = mapNext (·.withCodes c) (s.storeTo a v) := by
  unfold State.storeTo
  rw [memWrite_withCodes]
  cases s.memWrite a v <;> rfl

theorem execLdi_withCodes (dr : Reg) (po : BitVec 9) : execLdi dr po (s.withCodes c) = execLdi dr po s := by
  unfold execLdi
  rw [memRead_withCodes, State.withCodes_pageAddr]
  cases s.memRead (s.pageAddr po) with
  | error r => rfl
  | ok p => exact loadFrom_withCodes p.2 c dr p.1

theorem execSti_withCodes (sr : Reg) (po : BitVec 9) :
    execSti sr po (s.withCodes c) = mapNext (·.withCodes c) (execSti sr po s) := by
  unfold execSti
  rw [memRead_withCodes, State.withCodes_pageAddr]
  cases s.memRead (s.pageAddr po) with
  | error r => rfl
  | ok p => exact storeTo_withCodes p.2 c p.1 (s.x sr)

theorem execJsrr_withCodes (base : Reg) (off : BitVec 6) :
    execJsrr base off (s.withCodes c) = mapNext (·.withCodes c) (execJsrr base off s) := by
  unfold execJsrr
  rw [State.withCodes_jsrrTarget]
  cases s.jsrrTarget base off <;> rfl

theorem pop_withCodes (r : RtiParams) :
    (s.withCodes c).pop r = (s.pop r).map fun p => (p.1, p.2.withCodes c) := by
  unfold State.pop
  rw [memRead_withCodes, State.withCodes_x]
  cases s.memRead (popAddr r (s.x r.sp)) <;> rfl

theorem execRti_withCodes : execRti (s.withCodes c) = execRti s := by
  unfold execRti
  rw [State.withCodes_params]
  cases s.params.rti with
  | none => rfl
  | some r =>
    simp only [pop_withCodes]
    cases s.pop r with
    | error e => rfl
    | ok p =>
      simp only [Except.map, pop_withCodes]
      cases p.2.pop r <;> rfl

theorem trapEntry_withCodes (vec : BitVec 8) :
    (s.withCodes c).trapEntry vec = mapNext (·.withCodes c) (s.trapEntry vec) := by
  unfold State.trapEntry
  rw [memRead_withCodes]
  cases s.memRead (vectorAddr vec) <;> rfl

/-! ### The parts of a service call -/

theorem awaitKeyIn_withCodes (env : List (List DeviceEvent)) :
    (s.withCodes c).awaitKeyIn env = (s.awaitKeyIn env).map (·.withCodes c) := by
  induction env generalizing s with
  | nil =>
    unfold State.awaitKeyIn
    rw [State.withCodes_dev]
    split <;> rfl
  | cons es env ih =>
    unfold State.awaitKeyIn
    rw [State.withCodes_dev, deviceSteps_withCodes, ih]
    split <;> rfl

theorem awaitCrtIn_withCodes (env : List (List DeviceEvent)) :
    (s.withCodes c).awaitCrtIn env = (s.awaitCrtIn env).map (·.withCodes c) := by
  induction env generalizing s with
  | nil =>
    unfold State.awaitCrtIn
    rw [idle_withCodes, State.withCodes_dev]
    split <;> rfl
  | cons es env ih =>
    unfold State.awaitCrtIn
    rw [State.withCodes_dev, deviceSteps_withCodes, ih]
    split <;> rfl

theorem emitChar_withCodes (ch : Byte) :
    (s.withCodes c).emitChar ch = (s.emitChar ch).map (·.withCodes c) := by
  simp only [State.emitChar, gap_withCodes]
  rw [State.withCodes_env, awaitCrtIn_withCodes]
  cases s.gap.awaitCrtIn s.gap.env <;> rfl

theorem emit_withCodes (cs : List Byte) : (s.withCodes c).emit cs = (s.emit cs).map (·.withCodes c) := by
  induction cs generalizing s with
  | nil => rfl
  | cons ch cs ih =>
    unfold State.emit
    rw [emitChar_withCodes]
    cases s.emitChar ch with
    | error e => rfl
    | ok t => exact ih t

theorem takeKey_withCodes : (s.withCodes c).takeKey = (s.takeKey).map fun p => (p.1, p.2.withCodes c) := by
  simp only [State.takeKey, gap_withCodes]
  rw [State.withCodes_env, awaitKeyIn_withCodes]
  cases s.gap.awaitKeyIn s.gap.env <;> rfl

theorem readString_withCodes (fuel : Nat) (a : Word) : State.readString fuel (s.withCodes c) a =
    (State.readString fuel s a).map fun p => (p.1, p.2.1, p.2.2.withCodes c) := by
  induction fuel generalizing s a with
  | zero => rfl
  | succ fuel ih =>
    unfold State.readString
    rw [memRead_withCodes]
    cases s.memRead a with
    | error r => rfl
    | ok p =>
      simp only [Except.map, ih]
      split
      · rfl
      · cases State.readString fuel p.2 (a + 1#16) <;> rfl

/-- The stop of a service call, with other codes in the state of a string that runs on. -/
def CallStop.withCodes (c : CC) : CallStop → CallStop
  | .hang => .hang
  | .runsOn t => .runsOn (t.withCodes c)
  | .refused r => .refused r

theorem emitStringR0_withCodes : (s.withCodes c).emitStringR0 =
    ((s.emitStringR0).mapError (·.withCodes c)).map (·.withCodes c) := by
  unfold State.emitStringR0 State.stringAt
  rw [readString_withCodes, State.withCodes_x]
  cases State.readString 65536 s (s.x .r0) with
  | error r => rfl
  | ok p =>
    simp only [Except.map, emit_withCodes]
    cases hemit : p.2.2.emit p.1 with
    | error e => rw [emit_error hemit]; rfl
    | ok u => cases p.2.1 <;> rfl

theorem storesFold_withCodes (cells : List (Word × Word)) :
    cells.foldl (fun t x => if t.ordinary x.1 then t.setWord x.1 x.2 else t) (s.withCodes c) =
      (cells.foldl (fun t x => if t.ordinary x.1 then t.setWord x.1 x.2 else t) s).withCodes c := by
  induction cells generalizing s with
  | nil => rfl
  | cons x cells ih =>
    rw [List.foldl_cons, List.foldl_cons, State.withCodes_ordinary]
    split
    · exact ih (s.setWord x.1 x.2)
    · exact ih s

theorem freeMemory_withCodes : (s.withCodes c).freeMemory = s.freeMemory.withCodes c :=
  storesFold_withCodes s.afterDraw c _

theorem freeReg_withCodes (r : Reg) : (s.withCodes c).freeReg r = (s.freeReg r).withCodes c := rfl

theorem osEffects_withCodes : (s.withCodes c).osEffects = s.osEffects.withCodes c := by
  unfold State.osEffects
  rw [State.withCodes_params]
  split
  · rfl
  · simp only [freeReg_withCodes, freeMemory_withCodes]

/-- A call that returns writes over the codes. -/
theorem returnFromCall_withCodes : (s.withCodes c).returnFromCall = s.returnFromCall := by
  unfold State.returnFromCall
  rw [osEffects_withCodes]
  rfl

/-! ### The calls -/

theorem callGetc_withCodes : (s.withCodes c).callGetc = (s.callGetc).mapError (·.withCodes c) := by
  unfold State.callGetc
  rw [takeKey_withCodes]
  cases htake : s.takeKey with
  | error e => rw [takeKey_error htake]; rfl
  | ok p => simp only [Except.map, returnFromCall_withCodes]; rfl

theorem callOut_withCodes : (s.withCodes c).callOut = (s.callOut).mapError (·.withCodes c) := by
  unfold State.callOut
  rw [emitChar_withCodes, State.withCodes_x]
  cases hemit : s.emitChar ((s.x .r0).extractLsb' 0 8) with
  | error e => rw [emitChar_error hemit]; rfl
  | ok t => simp only [Except.map, returnFromCall_withCodes]; rfl

theorem callPuts_withCodes : (s.withCodes c).callPuts = (s.callPuts).mapError (·.withCodes c) := by
  unfold State.callPuts
  rw [emitStringR0_withCodes]
  cases s.emitStringR0 with
  | error e => rfl
  | ok t => simp only [Except.mapError, Except.map, returnFromCall_withCodes]

theorem callIn_withCodes : (s.withCodes c).callIn = (s.callIn).mapError (·.withCodes c) := by
  unfold State.callIn
  rw [emitStringR0_withCodes]
  cases s.emitStringR0 with
  | error e => rfl
  | ok t =>
    simp only [Except.mapError, Except.map, takeKey_withCodes]
    cases htake : t.takeKey with
    | error e => rw [takeKey_error htake]; rfl
    | ok p =>
      simp only [emitChar_withCodes]
      cases hemit : p.2.emitChar p.1 with
      | error e => rw [emitChar_error hemit]; rfl
      | ok v => simp only [Except.map, returnFromCall_withCodes]

theorem callHalt_withCodes : (s.withCodes c).callHalt = s.callHalt := by
  have hstop : (s.withCodes c).gap.haltMessage.haltStop = s.gap.haltMessage.haltStop.withCodes c := by
    rw [gap_withCodes]; rfl
  simp only [State.callHalt, hstop, returnFromCall_withCodes]

end WithCodes

/-! ### The codes apart -/

/-- The same outcome, the codes apart. -/
def CodesApart (o o' : StepOutcome) : Prop := ∃ c : CC, o' = mapNext (·.withCodes c) o

theorem CodesApart.refl (o : StepOutcome) : CodesApart o o := by
  cases o with
  | next t => exact ⟨t.cc, rfl⟩
  | fault f => exact ⟨default, rfl⟩
  | refused r => exact ⟨default, rfl⟩

theorem codesApart_of_eq {o o' : StepOutcome} (h : o' = o) : CodesApart o o' := h ▸ .refl o

theorem callOutcome_codesApart (s : State) (c : CC) (r : Except CallStop State) :
    CodesApart (s.callOutcome r) ((s.withCodes c).callOutcome (r.mapError (·.withCodes c))) := by
  rcases r with (_ | t | r) | t
  · exact ⟨c, rfl⟩
  · exact ⟨c, rfl⟩
  · exact .refl (.refused r)
  · exact .refl (.next t)

theorem serviceCall_codesApart (s : State) (c : CC) (vec : BitVec 8) :
    CodesApart (s.serviceCall vec) ((s.withCodes c).serviceCall vec) := by
  unfold State.serviceCall
  split_ifs
  · rw [callGetc_withCodes]; exact callOutcome_codesApart s c _
  · rw [callOut_withCodes]; exact callOutcome_codesApart s c _
  · rw [callPuts_withCodes]; exact callOutcome_codesApart s c _
  · rw [callIn_withCodes]; exact callOutcome_codesApart s c _
  · exact codesApart_of_eq (congrArg _ (callHalt_withCodes s c))
  · exact .refl _

theorem execTrap_codesApart (s : State) (c : CC) (vec : BitVec 8) :
    CodesApart (execTrap vec s) (execTrap vec (s.withCodes c)) := by
  unfold execTrap
  rw [State.withCodes_params]
  split
  · exact ⟨c, trapEntry_withCodes s c vec⟩
  · exact serviceCall_codesApart s c vec

/-- Settles O54: an instruction that sets the codes writes over those it met, and any other but BR leaves them. -/
theorem onlyBranchReadsCodes : Obligations.OnlyBranchReadsCodes := by
  intro i s c hbr
  show CodesApart (exec i s) (exec i (s.withCodes c))
  cases i with
  | br n z p po => exact absurd rfl (hbr n z p po)
  | addR | addI | andR | andI | notR | lea => exact .refl (.next _)
  | jmp | jsr | jmpr | ret => exact ⟨c, rfl⟩
  | ld | ldr => exact codesApart_of_eq (loadFrom_withCodes s c _ _)
  | ldi => exact codesApart_of_eq (execLdi_withCodes s c _ _)
  | st | str => exact ⟨c, storeTo_withCodes s c _ _⟩
  | sti => exact ⟨c, execSti_withCodes s c _ _⟩
  | jsrr => exact ⟨c, execJsrr_withCodes s c _ _⟩
  | rti => exact codesApart_of_eq (execRti_withCodes s c)
  | trap vec => exact execTrap_codesApart s c vec

end Sys2Proof.Machine
end
